-- ==== Sys2Proof/Word.lean ====
section
/-! DEFINITION. The words of the block: bytes, lanes and command words (00_scope R8, 30_encoding R40). -/

namespace Sys2Proof

/-- A message byte, a digest byte or a handle operand: 8 bits (30_encoding R41). -/
abbrev Byte := BitVec 8

/-- A lane of the Keccak state: 64 bits, unsigned (00_scope R8, 10_state R11). -/
abbrev Lane := BitVec 64

/-- A command word or a response word: 32 bits (30_encoding R40, R46). -/
abbrev Word := BitVec 32

/-- A Keccak state: 25 lanes in linear order, the lane at column x and row y at index x + 5·y (10_state R11). -/
abbrev Lanes := Vector Lane 25

/-- The payload of a response: 32 bytes in array order (20_memory R29, 30_encoding R46). -/
abbrev Digest := Vector Byte 32

end Sys2Proof
end

