-- ==== Sys2Proof/Syntax.lean ====
section
/-! DEFINITION. The commands of the block: one constructor per row of spec/opcode_table.json. -/

namespace Sys2Proof

/-- The five commands (30_encoding R42). A handle operand and a data byte are raw 8-bit fields: every value of them can be
written in a command word (30_encoding R41). -/
inductive Instr where
  /-- `NEW`: create a controller (41_sponge R70). -/
  | new
  /-- `ABSORB h, b`: absorb one message byte (41_sponge R71). -/
  | absorb (h b : Byte)
  /-- `DIGEST h`: squeeze the digest (41_sponge R72). -/
  | digest (h : Byte)
  /-- `COPY h`: clone a controller (41_sponge R73). -/
  | copy (h : Byte)
  /-- `DROP h`: release a controller (41_sponge R74). -/
  | drop (h : Byte)
  deriving DecidableEq, Repr

/-- The handle operand of a command; `NEW` takes none (30_encoding R43, 41_sponge R70). -/
def Instr.handle? : Instr → Option Byte
  | .new => none
  | .absorb h _ => some h
  | .digest h => some h
  | .copy h => some h
  | .drop h => some h

end Sys2Proof
end

