-- ==== Sys2Proof/WellFormed.lean ====
section
/-! DEFINITION. The well-formedness of a command, as a check of the four raw fields of a command word (30_encoding R40, R43,
R44). Decode.lean does not call this check: the two are written apart, and a statement says that they agree. -/

namespace Sys2Proof

/-- The four fields every command word has (30_encoding R40). -/
structure Fields where
  /-- Bits 31:28. -/
  op : BitVec 4
  /-- Bits 27:16. -/
  rsv : BitVec 12
  /-- Bits 15:8. -/
  h : BitVec 8
  /-- Bits 7:0. -/
  d : BitVec 8
  deriving DecidableEq, Repr

/-- Why a command word spells no command (30_encoding R44). Only the status ILLEGAL reaches the host (60_exceptions R83);
which of these names a word with several faults gets is the model's own (log entry 8, DESIGN CHOICE, safe). -/
inductive Illegal where
  /-- `OP` is 0x0 or one of 0x6 to 0xF. -/
  | reservedOp
  /-- `RSV` is not 0. -/
  | rsvNotZero
  /-- `H` is not 0 in a command whose `H` must be 0. -/
  | hNotZero
  /-- `D` is not 0 in a command whose `D` must be 0. -/
  | dNotZero
  deriving DecidableEq, Repr

/-- A row of the opcode map in match and mask form: a word w is the command when w ∧ mask = value (30_encoding R42). -/
structure OpcodeRow where
  /-- The mnemonic, as spec/opcode_table.json spells it. -/
  mnemonic : String
  /-- The match value. -/
  value : Word
  /-- The mask. -/
  mask : Word
  deriving DecidableEq, Repr

namespace Fields

/-- `OP` is one of the five opcodes of 30_encoding R42. -/
def opKnown (f : Fields) : Bool := 1 ≤ f.op.toNat && f.op.toNat ≤ 5

/-- `RSV` must be 0 in every command (30_encoding R43). -/
def rsvOk (f : Fields) : Bool := f.rsv == 0

/-- `H` must be 0 in `NEW` and is an operand elsewhere (30_encoding R43). -/
def hOk (f : Fields) : Bool := f.op != 1 || f.h == 0

/-- `D` is an operand in `ABSORB` and must be 0 elsewhere (30_encoding R43). -/
def dOk (f : Fields) : Bool := f.op == 2 || f.d == 0

/-- The fields spell a command: none of the cases of 30_encoding R44. -/
def wellFormed (f : Fields) : Bool := f.opKnown && f.rsvOk && f.hOk && f.dOk

/-- The command word with these fields (30_encoding R40). -/
def word (f : Fields) : Word := f.op ++ f.rsv ++ f.h ++ f.d

/-- The four fields of a command word (30_encoding R40). -/
def ofWord (w : Word) : Fields :=
  { op := w.extractLsb' 28 4, rsv := w.extractLsb' 16 12, h := w.extractLsb' 8 8, d := w.extractLsb' 0 8 }

end Fields

/-- The fields a command is written with (30_encoding R42, R43). -/
def Instr.fields : Instr → Fields
  | .new => { op := 0x1, rsv := 0, h := 0, d := 0 }
  | .absorb h b => { op := 0x2, rsv := 0, h := h, d := b }
  | .digest h => { op := 0x3, rsv := 0, h := h, d := 0 }
  | .copy h => { op := 0x4, rsv := 0, h := h, d := 0 }
  | .drop h => { op := 0x5, rsv := 0, h := h, d := 0 }

/-- A command is well formed when its fields are. Every command of this block is, because its operands admit every value of
their fields (30_encoding R41). -/
def Instr.wellFormed (i : Instr) : Bool := i.fields.wellFormed

end Sys2Proof
end

