-- ==== Sys2Proof/Decode.lean ====
section
/-! DEFINITION. The decoder of command words, total, rejecting by name, and the encoder (30_encoding R40 to R45). -/

namespace Sys2Proof

/-- `OP`, bits 31:28 of a command word (30_encoding R40). -/
def fieldOp (w : Word) : BitVec 4 := w.extractLsb' 28 4

/-- `RSV`, bits 27:16 (30_encoding R40). -/
def fieldRsv (w : Word) : BitVec 12 := w.extractLsb' 16 12

/-- `H`, bits 15:8 (30_encoding R40, R41). -/
def fieldH (w : Word) : Byte := w.extractLsb' 8 8

/-- `D`, bits 7:0 (30_encoding R40, R41). -/
def fieldD (w : Word) : Byte := w.extractLsb' 0 8

/-- The command a word whose `RSV` is 0 spells under its opcode (30_encoding R42, R43). -/
def decodeFields (op : Nat) (h d : Byte) : Except Illegal Instr :=
  match op with
  | 1 => if h ≠ 0 then .error .hNotZero else if d ≠ 0 then .error .dNotZero else .ok .new
  | 2 => .ok (.absorb h d)
  | 3 => if d ≠ 0 then .error .dNotZero else .ok (.digest h)
  | 4 => if d ≠ 0 then .error .dNotZero else .ok (.copy h)
  | 5 => if d ≠ 0 then .error .dNotZero else .ok (.drop h)
  | _ => .error .reservedOp

/-- The command a word spells, or the name of the case of 30_encoding R44 that makes it illegal. A reserved opcode is named
before a nonzero `RSV`, and that before a nonzero `H` or `D` (log entry 8, DESIGN CHOICE, safe). -/
def decode (w : Word) : Except Illegal Instr :=
  if (fieldOp w).toNat = 0 ∨ 5 < (fieldOp w).toNat then .error .reservedOp
  else if fieldRsv w ≠ 0 then .error .rsvNotZero
  else decodeFields (fieldOp w).toNat (fieldH w) (fieldD w)

/-- The words of the opcode map, as the encoding line of each command's rule writes them (41_sponge R70 to R74). -/
def encode : Instr → Word
  | .new => 0x10000000
  | .absorb h b => 0x20000000 ||| (h.setWidth 32 <<< 8) ||| b.setWidth 32
  | .digest h => 0x30000000 ||| (h.setWidth 32 <<< 8)
  | .copy h => 0x40000000 ||| (h.setWidth 32 <<< 8)
  | .drop h => 0x50000000 ||| (h.setWidth 32 <<< 8)

/-- The opcode map in match and mask form (30_encoding R42). The decoder does not read it: a statement says that the two
agree. -/
def opcodeRows : List OpcodeRow :=
  [{ mnemonic := "NEW", value := 0x10000000, mask := 0xFFFFFFFF },
   { mnemonic := "ABSORB", value := 0x20000000, mask := 0xFFFF0000 },
   { mnemonic := "DIGEST", value := 0x30000000, mask := 0xFFFF00FF },
   { mnemonic := "COPY", value := 0x40000000, mask := 0xFFFF00FF },
   { mnemonic := "DROP", value := 0x50000000, mask := 0xFFFF00FF }]

/-- The word is the command of the row (30_encoding R42). -/
def rowMatches (w : Word) (r : OpcodeRow) : Bool := w &&& r.mask == r.value

/-- The mnemonic of a command (30_encoding R42). -/
def mnemonic : Instr → String
  | .new => "NEW"
  | .absorb _ _ => "ABSORB"
  | .digest _ => "DIGEST"
  | .copy _ => "COPY"
  | .drop _ => "DROP"

/-- The command the decoder reads from the first `nbits` bits of `w`, numbered as the opcode table numbers them. A command is
one 32-bit word delivered whole (30_encoding R45, 20_memory R30), so no byte order enters, and a number of more than 32 bits
is no command word (log entry 16, DEDUCED, safe). The spec has no number of another width than 32 bits either; one whose value
fits 32 bits is read as the word with zeros above it (log entry 18, DESIGN CHOICE, safe). -/
def decodeTableWord (nbits w : Nat) : Option Instr :=
  if w % 2 ^ nbits < 2 ^ 32 then (decode (BitVec.ofNat 32 (w % 2 ^ nbits))).toOption else none

end Sys2Proof
end

