-- ==== Sys2Proof/Config.lean ====
section
/-! DEFINITION. The hardwired constants of the block (00_scope R5, 10_state R19) and its one open parameter, NUM_CTX
(00_scope R7). -/

namespace Sys2Proof.Config

/-- NUM_CTX less one. NO VALUE: 00_scope R7 leaves NUM_CTX open in 1..256, so nothing in Lean can prove a value of it
(log entry 1, DESIGN CHOICE, safe). -/
opaque moreCtx : Fin 256

/-- `NUM_CTX`, the number of contexts of the block after power-on, 1 to 256 (00_scope R7). Only State.reset names it: in
every other definition NUM_CTX is the number of contexts the state holds. -/
def numCtx : Nat := moreCtx.val + 1

/-- `RATE`, in bytes (00_scope R5). The types of the model spell it 136. -/
abbrev rate : Nat := 136

/-- The capacity, in bytes (00_scope R5, 20_memory R26). The rate is the first 136 bytes of a state, the capacity the last
64. -/
abbrev capacity : Nat := 64

/-- `W`, in bits (00_scope R5). -/
abbrev laneWidth : Nat := 64

/-- `NLANES` (00_scope R5). The types of the model spell it 25. -/
abbrev numLanes : Nat := 25

/-- `DIGEST_SIZE`, in bytes (00_scope R5). The types of the model spell it 32. -/
abbrev digestSize : Nat := 32

/-- `NROUNDS` (00_scope R5). -/
abbrev numRounds : Nat := 24

/-- `DSBYTE`, the domain-separation byte (00_scope R5). -/
abbrev dsByte : Byte := 0x06

/-- `PADLAST`, XORed into the last byte of the rate (00_scope R5). -/
abbrev padLast : Byte := 0x80

end Sys2Proof.Config
end

