-- ==== Sys2Proof/Machine/State.lean ====
section
/-! DEFINITION. The state of the block as plain data (10_state R10 to R18), the responses and the host's actions
(30_encoding R46, R48), the ways a step can stop, and the state after reset (10_state R22). -/

namespace Sys2Proof.Machine

/-- The five status codes a response can carry (30_encoding R47). -/
inductive Status where
  /-- The command's body ran. -/
  | ok
  /-- The word spells no command; no state changed. -/
  | illegal
  /-- The handle names no live context; no state changed. -/
  | badHandle
  /-- No free context to allocate; `FATAL` was set. -/
  | exhausted
  /-- `FATAL` is 1; no state changed. -/
  | halted
  deriving DecidableEq, Repr

/-- The one response every command produces: the fields of the response word and the payload (30_encoding R46; log entry 9,
DESIGN CHOICE, safe). -/
structure Response where
  /-- `STATUS`. -/
  status : Status
  /-- `HANDLE`: the allocated handle of a `NEW` or `COPY` that ends with `OK`, otherwise 0. -/
  handle : Byte
  /-- The digest of a `DIGEST` that ends with `OK`, otherwise 32 bytes of 0. -/
  payload : Digest
  deriving DecidableEq, Repr

/-- The two things the host can do to the block (30_encoding R48). -/
inductive HostAction where
  /-- Issue one command word. -/
  | command (w : Word)
  /-- Assert reset, between commands. -/
  | reset
  deriving DecidableEq, Repr

/-- The storage of one controller instance (10_state R12). -/
structure Context where
  /-- `LIVE`: the context holds a controller (10_state R15). -/
  live : Bool
  /-- `A`: the 25 lanes (10_state R11). -/
  lanes : Lanes
  /-- `CUR`, the absorb cursor. 136 is never stored, so the type holds 0 to 135 only, as 10_state R14 allows
  (log entry 7, DESIGN CHOICE, safe). -/
  cur : Fin 136
  deriving DecidableEq, Repr

/-- All 25 lanes 0. -/
def zeroLanes : Lanes := Vector.replicate 25 0

/-- A free context as reset and `DROP` leave it (10_state R22, R23). -/
def Context.free : Context := { live := false, lanes := zeroLanes, cur := 0 }

/-- The state of the block, and the host at its command port. -/
structure State where
  /-- `ctx[0..NUM_CTX−1]`; `NUM_CTX` is the length of the list (10_state R10; log entry 1, DESIGN CHOICE, safe). -/
  ctx : List Context
  /-- `FATAL`, sticky until reset (10_state R18). -/
  fatal : Bool
  /-- The model's own: the host's actions still to come, in the order it takes them (30_encoding R48; log entry 2, DESIGN CHOICE,
  safe). -/
  inbox : List HostAction
  /-- The model's own: the responses so far, oldest first; the observation of a run (41_sponge R82; log entry 2,
  DESIGN CHOICE, safe). -/
  responses : List Response
  deriving DecidableEq, Repr

/-- Reasons a step stops with a fault. There is none, so this type has no constructor: every error of the block is a status
in a response and the block goes on (60_exceptions R83, R88, R90; log entry 10, DEDUCED, safe). -/
inductive Fault
  deriving DecidableEq, Repr

/-- Reasons a step refuses an instruction. -/
inductive Refusal where
  /-- No meaning yet for the instruction with this mnemonic: raised by an arm of exec only, and by none, since every command
  has its meaning (safe). -/
  | notModelled (mnemonic : String)
  deriving DecidableEq, Repr

/-- The block with `n` contexts right after reset: no context live, every lane and cursor 0, `FATAL` 0 (10_state R22,
70_reset_and_hazards R94); the host has issued nothing. -/
def State.resetWith (n : Nat) : State :=
  { ctx := List.replicate n Context.free, fatal := false, inbox := [], responses := [] }

/-- The block right after reset, for the `NUM_CTX` it has (10_state R22). -/
def State.reset : State := State.resetWith Config.numCtx

end Sys2Proof.Machine
end

