-- ==== Sys2Proof/Machine/Flags.lean ====
section
/-! DEFINITION. The block has no flags (10_state R17); what reports the outcome of a command is its response. This file holds
the status codes and the response word (30_encoding R46, R47), and the order of the checks as 60_exceptions R84 writes it. -/

namespace Sys2Proof.Machine

/-- The 4-bit code of a status (30_encoding R47). -/
def Status.code : Status → BitVec 4
  | .ok => 0x0
  | .illegal => 0x1
  | .badHandle => 0x2
  | .exhausted => 0x3
  | .halted => 0x4

/-- 32 bytes of 0x00: the payload of every response but a digest (30_encoding R46). -/
def zeroPayload : Digest := Vector.replicate 32 0

/-- The response word: `STATUS` in bits 3:0, `HANDLE` in bits 15:8, every other bit 0 (30_encoding R46). -/
def Response.word (r : Response) : Word := (0 : BitVec 16) ++ r.handle ++ (0 : BitVec 4) ++ r.status.code

/-- `ctx[h].LIVE` = 1 for a handle less than `NUM_CTX` (10_state R15). -/
def liveAt (s : State) (h : Byte) : Bool :=
  match s.ctx[h.toNat]? with
  | some c => c.live
  | none => false

/-- `Check(cmd)`, over the opcode map and the raw fields of the word (60_exceptions R84). The meanings in Commands.lean do not
call it: a statement says that the status of each response is the one this function gives. -/
def checkWord (s : State) (w : Word) : Status :=
  if s.fatal then .halted
  else if !opcodeRows.any (rowMatches w) then .illegal
  else if 2 ≤ (fieldOp w).toNat && !liveAt s (fieldH w) then .badHandle
  else if ((fieldOp w).toNat == 1 || (fieldOp w).toNat == 4) && s.ctx.all (·.live) then .exhausted
  else .ok

end Sys2Proof.Machine
end

