-- ==== Sys2Proof/Machine/Operands.lean ====
section
/-! DEFINITION. The operands of commands: the context a handle names (30_encoding R41), the context an allocation takes
(41_sponge R70, R73), and the byte view of a state, where a data byte goes (20_memory R25). -/

namespace Sys2Proof.Machine

/-- The context a handle names, when it is less than `NUM_CTX` and live; otherwise the handle names none and the command
is BAD_HANDLE (30_encoding R41, 60_exceptions R83). -/
def liveContext (s : State) (h : Byte) : Option Context :=
  match s.ctx[h.toNat]? with
  | some c => if c.live then some c else none
  | none => none

/-- The least j less than `NUM_CTX` with `LIVE` = 0, if there is one (41_sponge R70, R73). -/
def freeContext (s : State) : Option Nat := s.ctx.findIdx? fun c => !c.live

/-- How far byte k of a state lies above bit 0 of its lane: little-endian, byte 0 of a lane is its least significant byte
(20_memory R25). -/
def byteShift (k : Nat) : Nat := 8 * (k % 8)

/-- `StateByte(A, k)` (20_memory R25). -/
def stateByte (A : Lanes) (k : Fin 200) : Byte :=
  (A[k.val / 8]'(by omega) >>> byteShift k.val).setWidth 8

/-- `XorStateByte(A, k, b)` (20_memory R25). -/
def xorStateByte (A : Lanes) (k : Fin 200) (b : Byte) : Lanes :=
  A.set (k.val / 8) (A[k.val / 8]'(by omega) ^^^ (b.setWidth 64 <<< byteShift k.val)) (by omega)

/-- Byte k of the rate, as a byte of the state: the rate is the first 136 bytes (20_memory R26). -/
def rateByte (k : Fin 136) : Fin 200 := ⟨k.val, by omega⟩

end Sys2Proof.Machine
end

