-- ==== Sys2Proof/Machine/Ops.lean ====
section
/-! DEFINITION. The named operations over the state: writing a context, responding, and the shared forms of the checks every
command passes (60_exceptions R84). The block has no traps (60_exceptions R90): what stands in their place is `raise`, which
answers an error status and changes nothing, and `exhaust`, which also sets `FATAL` (60_exceptions R85, R86). The only way
back from `FATAL` is `resetBlock` (60_exceptions R87). -/

namespace Sys2Proof.Machine

/-- `ctx[j] <- c`; the only writer of contexts beside reset (00_scope R8, 10_state R20). -/
def writeContext (j : Nat) (c : Context) (s : State) : State := { s with ctx := s.ctx.set j c }

/-- Deliver one response to the host (30_encoding R46). -/
def deliver (r : Response) (s : State) : State := { s with responses := s.responses ++ [r] }

/-- `respond(OK, handle, payload)` (00_scope R8). -/
def respondOk (handle : Byte) (payload : Digest) (s : State) : State :=
  deliver { status := .ok, handle := handle, payload := payload } s

/-- `raise <Status>`: the command ends with that status, `HANDLE` 0 and a zero payload, and no state changes
(60_exceptions R83, R85). -/
def raise (st : Status) (s : State) : State :=
  deliver { status := st, handle := 0, payload := zeroPayload } s

/-- No free context: `FATAL <- 1; raise EXHAUSTED`; no context changes (60_exceptions R86). -/
def exhaust (s : State) : State := raise .exhausted { s with fatal := true }

/-- Check 1: while `FATAL` is 1 every command answers HALTED (60_exceptions R84, R87). -/
def whenServing (s : State) (body : State → State) : State :=
  if s.fatal then raise .halted s else body s

/-- Check 3: a handle that names no live context answers BAD_HANDLE (60_exceptions R84). -/
def withLive (h : Byte) (s : State) (body : Context → State) : State :=
  match liveContext s h with
  | some c => body c
  | none => raise .badHandle s

/-- Check 4: an allocation takes the least free context, and without one the block is exhausted (60_exceptions R84, R86). -/
def withFree (s : State) (body : Nat → State) : State :=
  match freeContext s with
  | some j => body j
  | none => exhaust s

/-- The number of a context as the `HANDLE` field holds it (30_encoding R46; log entry 11, DESIGN CHOICE, safe). -/
def handleOf (j : Nat) : Byte := BitVec.ofNat 8 j

/-- A word that spells no command: HALTED while `FATAL` is 1, otherwise ILLEGAL (60_exceptions R84, checks 1 and 2). The
reason is not recorded (60_exceptions R83). -/
def rejectIllegal (_why : Illegal) (s : State) : State := whenServing s (raise .illegal)

/-- The host's reset: every piece of the block's state at its value of 10_state R22, and no response (70_reset_and_hazards
R94). `NUM_CTX` stays; the host's own side of the port is not the block's state (log entry 6, DEDUCED,
safe). -/
def resetBlock (s : State) : State :=
  { s with ctx := List.replicate s.ctx.length Context.free, fatal := false }

/-- The host's next action, if it takes one, and the state with that action taken from the inbox (30_encoding R48). -/
def takeAction (s : State) : Option (HostAction × State) :=
  match s.inbox with
  | [] => none
  | a :: rest => some (a, { s with inbox := rest })

/-- The host issues an action before all its others. -/
def giveAction (a : HostAction) (s : State) : State := { s with inbox := a :: s.inbox }

/-- The host issues, before all its others, the command word whose first `nbits` bits are those of `w`, numbered as the
opcode table numbers them. The spec has no command word of more than 32 bits (30_encoding R45); of a number that has more, the
word of its low 32 bits is issued, while decodeTableWord answers none for it (log entry 17, DESIGN CHOICE, safe). A number given with another width whose value fits 32 bits is issued as
the word with zeros above it, as decodeTableWord reads it (log entry 18, DESIGN CHOICE, safe). -/
def giveTableWord (nbits w : Nat) (s : State) : State :=
  giveAction (.command (BitVec.ofNat 32 (w % 2 ^ nbits))) s

end Sys2Proof.Machine
end

