-- ==== Sys2Proof/Machine/Permutation.lean ====
section
/-! DEFINITION. The Permutation Engine: Keccak-f[1600] (40_permutation R51 to R64). -/

namespace Sys2Proof.Machine

/-- `ROTL64(v, n)`: left rotation by n mod 64 places (00_scope R8). -/
def rotl64 (v : Lane) (n : Nat) : Lane := v.rotateLeft n

/-- `A[x,y]`, with the arithmetic on x and y mod 5 (00_scope R8, 10_state R11). -/
def laneAt (A : Lanes) (x y : Nat) : Lane := A[x % 5 + 5 * (y % 5)]'(by omega)

/-- The state whose lane at column x and row y is `f x y` (10_state R11). -/
def buildLanes (f : Nat → Nat → Lane) : Lanes := Vector.ofFn fun i => f (i.val % 5) (i.val / 5)

/-- `C[x]`, the parity of column x (40_permutation R52). -/
def columnParity (A : Lanes) (x : Nat) : Lane :=
  laneAt A x 0 ^^^ laneAt A x 1 ^^^ laneAt A x 2 ^^^ laneAt A x 3 ^^^ laneAt A x 4

/-- `D[x]`: the parity of column x−1, not rotated, and that of column x+1, rotated by one (40_permutation R52,
90_conflicts C6). -/
def thetaEffect (A : Lanes) (x : Nat) : Lane :=
  columnParity A (x + 4) ^^^ rotl64 (columnParity A (x + 1)) 1

/-- θ (40_permutation R52). -/
def theta (A : Lanes) : Lanes := buildLanes fun x y => laneAt A x y ^^^ thetaEffect A x

/-- The rho rotation offsets in linear lane order (40_permutation R53). -/
def rhoOffsets : Vector Nat 25 :=
  #v[0, 1, 62, 28, 27,
     36, 44, 6, 55, 20,
     3, 10, 43, 25, 39,
     41, 45, 15, 21, 8,
     18, 2, 61, 56, 14]

/-- ρ: each lane rotated left by its offset; no lane moves (40_permutation R55). -/
def rho (A : Lanes) : Lanes := Vector.ofFn fun i => rotl64 A[i] rhoOffsets[i]

/-- π (40_permutation R56). -/
def pi (A : Lanes) : Lanes := buildLanes fun x y => laneAt A (x + 3 * y) x

/-- The source lane s(i) of each destination lane i of π, in linear order, as the rule lists it; a statement says that π
follows it (40_permutation R56). -/
def piSource : Vector (Fin 25) 25 :=
  #v[0, 6, 12, 18, 24, 3, 9, 10, 16, 22, 1, 7, 13, 19, 20, 4, 5, 11, 17, 23, 2, 8, 14, 15, 21]

/-- χ: all five results of a row come from the row's input lanes (40_permutation R57). -/
def chi (A : Lanes) : Lanes :=
  buildLanes fun x y => laneAt A x y ^^^ (~~~ laneAt A (x + 1) y &&& laneAt A (x + 2) y)

/-- The rows of the table of round constants as the rule prints it: row i holds `RC[i]` and `RC[i + 12]` (40_permutation
R58). -/
def roundRows : Vector (Lane × Lane) 12 :=
  #v[(0x0000000000000001, 0x000000008000808B),
     (0x0000000000008082, 0x800000000000008B),
     (0x800000000000808A, 0x8000000000008089),
     (0x8000000080008000, 0x8000000000008003),
     (0x000000000000808B, 0x8000000000008002),
     (0x0000000080000001, 0x8000000000000080),
     (0x8000000080008081, 0x000000000000800A),
     (0x8000000000008009, 0x800000008000000A),
     (0x000000000000008A, 0x8000000080008081),
     (0x0000000000000088, 0x8000000000008080),
     (0x0000000080008009, 0x0000000080000001),
     (0x000000008000000A, 0x8000000080008008)]

/-- `RC[ir]` (40_permutation R58). -/
def roundConstant (ir : Fin 24) : Lane :=
  if h : ir.val < 12 then roundRows[ir.val].1 else (roundRows[ir.val - 12]'(by omega)).2

/-- ι: changes lane (0,0) only (40_permutation R60). -/
def iota (A : Lanes) (ir : Fin 24) : Lanes := A.set 0 (A[0] ^^^ roundConstant ir)

/-- One round (40_permutation R61). -/
def round (A : Lanes) (ir : Fin 24) : Lanes := iota (chi (pi (rho (theta A)))) ir

/-- The rounds of the list, in its order. -/
def rounds (irs : List (Fin 24)) (A : Lanes) : Lanes := irs.foldl round A

/-- Keccak-f[1600]: 24 rounds, ir = 0, 1, …, 23 (40_permutation R62). -/
def keccakF (A : Lanes) : Lanes := rounds (List.finRange Config.numRounds) A

/-- The walk of the rho generator from (x, y) at count t, `n` steps long: the offsets it assigns, each with its linear lane
index (40_permutation R54). -/
def rhoWalk : (n t x y : Nat) → List (Nat × Nat)
  | 0, _, _, _ => []
  | n + 1, t, x, y => (x + 5 * y, (t + 1) * (t + 2) / 2 % 64) :: rhoWalk n (t + 1) y ((2 * x + 3 * y) % 5)

/-- The offset the rho generator assigns to a linear lane index (40_permutation R54). -/
def rhoGenerated (i : Nat) : Nat := ((0, 0) :: rhoWalk 24 0 1 0).lookup i |>.getD 0

/-- One step of the round-constant generator on R[0..7], R[0] first (40_permutation R59). -/
def rcStep : List Bool → List Bool
  | [r0, r1, r2, r3, r4, r5, r6, r7] => [r7, r0, r1, r2, r3 ^^ r7, r4 ^^ r7, r5 ^^ r7, r6]
  | r => r

/-- `n` steps of the round-constant generator. -/
def rcSteps : Nat → List Bool → List Bool
  | 0, r => r
  | n + 1, r => rcSteps n (rcStep r)

/-- `rc(t)` (40_permutation R59). -/
def rcBit (t : Nat) : Bool :=
  (rcSteps (t % 255) [true, false, false, false, false, false, false, false]).head?.getD false

/-- `RC[ir]` as the generator gives it: bit 2^j − 1 is rc(j + 7·ir), for j = 0..6 (40_permutation R59). -/
def rcGenerated (ir : Nat) : Lane :=
  BitVec.ofNat 64 ((List.range 7).map fun j => if rcBit (j + 7 * ir) then 2 ^ (2 ^ j - 1) else 0).sum

end Sys2Proof.Machine
end

