-- ==== Sys2Proof/Machine/Sponge.lean ====
section
/-! DEFINITION. The pure functions of the Sponge Controller (41_sponge R65 to R68). -/

namespace Sys2Proof.Machine

/-- `AbsorbByte(A, CUR, b)`: the byte is XORed at the cursor; when the incremented cursor is 136 the permutation runs on the
full state and the cursor is 0 again. 136 is a local value, never returned (41_sponge R65, 90_conflicts C2). -/
def absorbByte (A : Lanes) (cur : Fin 136) (b : Byte) : Lanes × Fin 136 :=
  let A1 := xorStateByte A (rateByte cur) b
  if h : cur.val + 1 = Config.rate then (keccakF A1, 0)
  else (A1, ⟨cur.val + 1, by simp only [Config.rate] at h; omega⟩)

/-- `Pad(A, CUR)`: 0x06 at the cursor, 0x80 into byte 135, merged when the two are the same byte (41_sponge R66). -/
def pad (A : Lanes) (cur : Fin 136) : Lanes :=
  xorStateByte (xorStateByte A (rateByte cur) Config.dsByte) (rateByte 135) Config.padLast

/-- `Squeeze(A')`: bytes 0 to 31 of the state, in order (41_sponge R67). -/
def squeeze (A : Lanes) : Digest := Vector.ofFn fun j => stateByte A ⟨j.val, by omega⟩

/-- `DigestOf(A, CUR)`: the padded and permuted scratch state is squeezed and discarded (41_sponge R68). -/
def digestOf (A : Lanes) (cur : Fin 136) : Digest := squeeze (keccakF (pad A cur))

end Sys2Proof.Machine
end

