-- ==== Sys2Proof/Machine/Commands.lean ====
section
/-! DEFINITION. The meanings of the five commands, each with its checks in the order of 60_exceptions R84 (41_sponge R69 to
R74). -/

namespace Sys2Proof.Machine

/-- A context as `NEW` makes it: live, every lane 0, cursor 0 (41_sponge R70). -/
def Context.fresh : Context := { live := true, lanes := zeroLanes, cur := 0 }

/-- A context after absorbing one byte (41_sponge R71). -/
def Context.absorb (c : Context) (b : Byte) : Context :=
  { c with lanes := (absorbByte c.lanes c.cur b).1, cur := (absorbByte c.lanes c.cur b).2 }

/-- `NEW` (41_sponge R70). -/
def execNew (s : State) : Host.Outcome State Fault Refusal :=
  .next <| whenServing s fun s =>
    withFree s fun j => respondOk (handleOf j) zeroPayload (writeContext j Context.fresh s)

/-- `ABSORB h, b` (41_sponge R71). -/
def execAbsorb (h b : Byte) (s : State) : Host.Outcome State Fault Refusal :=
  .next <| whenServing s fun s =>
    withLive h s fun c => respondOk 0 zeroPayload (writeContext h.toNat (c.absorb b) s)

/-- `DIGEST h` (41_sponge R72). -/
def execDigest (h : Byte) (s : State) : Host.Outcome State Fault Refusal :=
  .next <| whenServing s fun s =>
    withLive h s fun c => respondOk 0 (digestOf c.lanes c.cur) s

/-- `COPY h`: the handle is checked before the allocation (41_sponge R73, 60_exceptions R84). -/
def execCopy (h : Byte) (s : State) : Host.Outcome State Fault Refusal :=
  .next <| whenServing s fun s =>
    withLive h s fun c =>
      withFree s fun j =>
        respondOk (handleOf j) zeroPayload
          (writeContext j { live := true, lanes := c.lanes, cur := c.cur } s)

/-- `DROP h` (41_sponge R74). -/
def execDrop (h : Byte) (s : State) : Host.Outcome State Fault Refusal :=
  .next <| whenServing s fun s =>
    withLive h s fun _ => respondOk 0 zeroPayload (writeContext h.toNat Context.free s)

end Sys2Proof.Machine
end

