-- ==== Sys2Proof/Machine/Dispatch.lean ====
section
/-! DEFINITION. The meaning of every command, one arm per constructor of Instr. -/

namespace Sys2Proof.Machine

def exec (i : Instr) (s : State) : Host.Outcome State Fault Refusal :=
  match i with
  | .new => Sys2Proof.Machine.execNew s
  | .absorb h b => Sys2Proof.Machine.execAbsorb h b s
  | .digest h => Sys2Proof.Machine.execDigest h s
  | .copy h => Sys2Proof.Machine.execCopy h s
  | .drop h => Sys2Proof.Machine.execDrop h s

end Sys2Proof.Machine
end

