-- ==== Sys2Proof/Machine/Port.lean ====
section
/-! DEFINITION. The command port: what the block does with one action of the host (30_encoding R48). -/

namespace Sys2Proof.Machine

/-- Execute one command word: the command it spells, or its rejection (20_memory R31, 60_exceptions R84). -/
def runWord (w : Word) (s : State) : Host.Outcome State Fault Refusal :=
  match decode w with
  | .ok i => exec i s
  | .error why => .next (rejectIllegal why s)

/-- The block's move on an action of the host: a command is one indivisible transition, and reset comes only between
commands (20_memory R31, 30_encoding R48, 70_reset_and_hazards R94). -/
def runAction (a : HostAction) (s : State) : Host.Outcome State Fault Refusal :=
  match a with
  | .command w => runWord w s
  | .reset => .next (resetBlock s)

/-- The host takes no action: nothing changes (log entry 3, DESIGN CHOICE, safe). -/
def idle (s : State) : Host.Outcome State Fault Refusal := .next s

end Sys2Proof.Machine
end

