-- ==== Sys2Proof/Machine/Step.lean ====
section
/-! DEFINITION. One step of the block: the host's next action, taken whole (20_memory R31, R34; 30_encoding R48). -/

namespace Sys2Proof.Machine

/-- One step takes the host's next action, in the order the host delivers them (20_memory R34). -/
def step (s : State) : Host.Outcome State Fault Refusal :=
  match takeAction s with
  | none => idle s
  | some (a, t) => runAction a t

/-- The state in which the host's next action is to issue the command word whose first `nbits` bits are those of `w`. The
block fetches nothing (10_state R16), so this is how a command reaches it (log entry 4, DESIGN CHOICE, safe). -/
def State.withFetchWord (s : State) (nbits w : Nat) : State := giveTableWord nbits w s

end Sys2Proof.Machine
end

