-- ==== Sys2Proof/Machine/HostOps.lean ====
section
/-! DEFINITION. The host's side: the pseudo-operations as sequences of commands (30_encoding R50), the host's check of its
data (41_sponge R80) and the hexadecimal form of a digest (41_sponge R81). None of it is part of the block. -/

namespace Sys2Proof.Machine

/-- `ABSORB.BYTES h, b0, …, bn−1`: one `ABSORB` a byte, none for no byte (30_encoding R50). -/
def absorbBytes (h : Byte) (bs : List Byte) : List Instr := bs.map (Instr.absorb h)

/-- The commands of `NEW.WITH` after its `NEW`, for the handle of the response (30_encoding R50). -/
def newWithTail (bs : List Byte) (h : Byte) : List Instr := absorbBytes h bs

/-- The commands of `HASH` after its `NEW`, for the handle of the response (30_encoding R50). -/
def hashTail (bs : List Byte) (h : Byte) : List Instr := absorbBytes h bs ++ [.digest h, .drop h]

/-- Commands as the host issues them. -/
def asActions (is : List Instr) : List HostAction := is.map fun i => .command (encode i)

/-- The host issues these commands, in order, before its other actions. -/
def issueAll (is : List Instr) (s : State) : State := { s with inbox := asActions is ++ s.inbox }

/-- The host reads the response to its `NEW` and goes on with the handle in it; after another status than OK it issues
nothing more (log entry 13, DESIGN CHOICE, safe). -/
def continueWithHandle (tail : Byte → List Instr) (s : State) : State :=
  match s.responses.getLast? with
  | some r => if r.status = .ok then issueAll (tail r.handle) s else s
  | none => s

/-- The host issues `NEW`, waits for the response, and then issues the commands the handle gives (30_encoding R48, R50). -/
def newThen (tail : Byte → List Instr) (s : State) : Host.Outcome State Fault Refusal :=
  match step (giveAction (.command (encode .new)) s) with
  | .next t => .next (continueWithHandle tail t)
  | .fault r => .fault r
  | .refused r => .refused r

/-- `NEW.WITH bytes`: the state with the `ABSORB`s of the bytes still to run (30_encoding R50, D30). -/
def newWith (bs : List Byte) (s : State) : Host.Outcome State Fault Refusal := newThen (newWithTail bs) s

/-- `HASH bytes`: the state with the `ABSORB`s, the `DIGEST` and the `DROP` still to run (30_encoding R50). -/
def hash (bs : List Byte) (s : State) : Host.Outcome State Fault Refusal := newThen (hashTail bs) s

/-- The host's check that its data is a byte sequence, all of it before the first command (41_sponge R80). -/
def checkBytes (data : List Nat) : Option (List Byte) :=
  if data.all (· < 256) then some (data.map (BitVec.ofNat 8)) else none

/-- `ABSORB.BYTES` on unchecked data: the commands, or none at all when the check fails (41_sponge R80). -/
def absorbChecked (h : Byte) (data : List Nat) : Option (List Instr) := (checkBytes data).map (absorbBytes h)

/-- The lowercase hexadecimal digit of a number less than 16 (41_sponge R81). -/
def hexDigit (n : Nat) : Char := "0123456789abcdef".toList.getD n '0'

/-- The textual form of a digest: two digits a byte, high nibble first, in array order (41_sponge R81). -/
def hexDigest (d : Digest) : List Char :=
  d.toList.flatMap fun b => [hexDigit (b.toNat / 16), hexDigit (b.toNat % 16)]

end Sys2Proof.Machine
end

