-- ==== Sys2Proof/Machine/Asm.lean ====
section
/-! DEFINITION. The assembler syntax of commands and pseudo-operations (30_encoding R49, R50), read from the characters of one
line. It is the host's side, no part of the block; what the rule does not fix of it is log entry 12
(DESIGN CHOICE, safe). -/

namespace Sys2Proof.Machine.Asm

/-- The apostrophe, around a quoted character. -/
def apostrophe : Char := Char.ofNat 39

/-- The double quote, around a text. -/
def doubleQuote : Char := Char.ofNat 34

/-- A piece of a line. -/
inductive Token where
  /-- A mnemonic or a numeral. -/
  | atom (cs : List Char)
  /-- A quoted character. -/
  | quoted (c : Char)
  /-- A quoted text. -/
  | text (cs : List Char)
  /-- A comma. -/
  | comma
  deriving DecidableEq, Repr

/-- Where the reader of a line stands. -/
inductive Mode where
  /-- Outside quotes. -/
  | plain
  /-- Inside apostrophes. -/
  | char
  /-- Inside double quotes. -/
  | text
  deriving DecidableEq, Repr

/-- The atom read so far, put before the tokens after it. -/
def closeAtom (acc : List Char) (ts : List Token) : List Token :=
  if acc.isEmpty then ts else .atom acc.reverse :: ts

/-- The tokens of a line; `acc` holds, last first, the characters of the token being read. A line whose quotes do not close
has none. The rule does not speak of white space (30_encoding R49): here it is needed only between two atoms, so a quoted operand
may follow the mnemonic with none (log entry 12, DESIGN CHOICE, safe). -/
def tokens (mode : Mode) (acc : List Char) : List Char → Option (List Token)
  | [] => if mode = .plain then some (closeAtom acc []) else none
  | c :: cs =>
    match mode with
    | .plain =>
      if c = ';' then some (closeAtom acc [])
      else if c.isWhitespace then (tokens .plain [] cs).map (closeAtom acc)
      else if c = ',' then (tokens .plain [] cs).map fun ts => closeAtom acc (.comma :: ts)
      else if c = apostrophe then (tokens .char [] cs).map (closeAtom acc)
      else if c = doubleQuote then (tokens .text [] cs).map (closeAtom acc)
      else tokens .plain (c :: acc) cs
    | .char =>
      match acc with
      | [] => tokens .char [c] cs
      | q :: _ => if c = apostrophe then (tokens .plain [] cs).map (.quoted q :: ·) else none
    | .text =>
      if c = doubleQuote then (tokens .plain [] cs).map (.text acc.reverse :: ·)
      else tokens .text (c :: acc) cs

/-- Operands separated by commas; none for a list that begins, ends or doubles one. -/
def operands : List Token → Option (List Token)
  | [] => some []
  | [.comma] => none
  | [t] => some [t]
  | .comma :: _ => none
  | t :: .comma :: u :: ts => (operands (u :: ts)).map (t :: ·)
  | _ :: _ => none

/-- The value of a digit in a base of at most 16; letters of either case. -/
def digit? (base : Nat) (c : Char) : Option Nat :=
  let n := if '0' ≤ c ∧ c ≤ '9' then c.toNat - 48
    else if 'a' ≤ c ∧ c ≤ 'f' then c.toNat - 87
    else if 'A' ≤ c ∧ c ≤ 'F' then c.toNat - 55
    else base
  if n < base then some n else none

/-- The value of digits after a value already read. -/
def digits? (base : Nat) (acc : Nat) : List Char → Option Nat
  | [] => some acc
  | c :: cs => (digit? base c).bind fun d => digits? base (acc * base + d) cs

/-- A numeral: decimal digits, or `0x` and hexadecimal digits (30_encoding R49). The rule writes the hexadecimal form of a byte
`0xNN` and no number of digits beyond that; here it has any number of digits from one on, of either case, and so has the
decimal form, leading zeros included (log entry 12, DESIGN CHOICE, safe). -/
def numeral? : List Char → Option Nat
  | '0' :: 'x' :: c :: cs => digits? 16 0 (c :: cs)
  | c :: cs => digits? 10 0 (c :: cs)
  | [] => none

/-- A numeral less than 256, however many digits it has (log entry 12, DESIGN CHOICE, safe). -/
def byte? (n : Nat) : Option Byte := if n < 256 then some (BitVec.ofNat 8 n) else none

/-- A quoted ASCII character as a byte (30_encoding R49). -/
def ascii? (c : Char) : Option Byte := if c.toNat < 128 then some (BitVec.ofNat 8 c.toNat) else none

/-- A handle operand: a numeral 0..255 (30_encoding R49). -/
def handleOperand : Token → Option Byte
  | .atom cs => (numeral? cs).bind byte?
  | _ => none

/-- A byte operand: a numeral or a quoted ASCII character (30_encoding R49). -/
def byteOperand : Token → Option Byte
  | .atom cs => (numeral? cs).bind byte?
  | .quoted c => ascii? c
  | _ => none

/-- The bytes of a pseudo-operation: byte operands, or one text, a byte per ASCII character (30_encoding R50). -/
def bytesOperand : List Token → Option (List Byte)
  | [.text cs] => cs.mapM ascii?
  | ts => ts.mapM byteOperand

/-- The word of `.word 0xXXXXXXXX`: eight hexadecimal digits (30_encoding R49). -/
def wordOperand : Token → Option Word
  | .atom ('0' :: 'x' :: cs) =>
    if cs.length = 8 then (digits? 16 0 cs).map (BitVec.ofNat 32) else none
  | _ => none

/-- What a line says. -/
inductive Line where
  /-- Nothing but spaces or a comment. -/
  | empty
  /-- One command. -/
  | command (i : Instr)
  /-- A raw command word. -/
  | word (w : Word)
  /-- `ABSORB.BYTES`. -/
  | absorbBytes (h : Byte) (bs : List Byte)
  /-- `NEW.WITH`. -/
  | newWith (bs : List Byte)
  /-- `HASH`. -/
  | hash (bs : List Byte)
  deriving DecidableEq, Repr

/-- A line with this mnemonic, in lower case, and these operands. -/
def lineOf (name : List Char) (ops : List Token) : Option Line :=
  if name = "new".toList then (if ops.isEmpty then some (.command .new) else none)
  else if name = "absorb".toList then
    match ops with
    | [h, b] => (handleOperand h).bind fun h => (byteOperand b).map fun b => .command (.absorb h b)
    | _ => none
  else if name = "digest".toList then
    match ops with
    | [h] => (handleOperand h).map fun h => .command (.digest h)
    | _ => none
  else if name = "copy".toList then
    match ops with
    | [h] => (handleOperand h).map fun h => .command (.copy h)
    | _ => none
  else if name = "drop".toList then
    match ops with
    | [h] => (handleOperand h).map fun h => .command (.drop h)
    | _ => none
  else if name = ".word".toList then
    match ops with
    | [w] => (wordOperand w).map .word
    | _ => none
  else if name = "absorb.bytes".toList then
    match ops with
    | h :: bs => (handleOperand h).bind fun h => (bytesOperand bs).map (.absorbBytes h)
    | [] => none
  else if name = "new.with".toList then (bytesOperand ops).map .newWith
  else if name = "hash".toList then (bytesOperand ops).map .hash
  else none

/-- Read one line; mnemonics are case-insensitive (30_encoding R49). -/
def line (cs : List Char) : Option Line :=
  match tokens .plain [] cs with
  | none => none
  | some [] => some .empty
  | some (.atom m :: ts) => (operands ts).bind (lineOf (m.map Char.toLower))
  | some _ => none

/-- The host's actions for a line, in order; a pseudo-operation that begins with `NEW` has none of its own, since its
commands wait for a response (30_encoding R50). -/
def actions : Line → Option (List HostAction)
  | .empty => some []
  | .command i => some (asActions [i])
  | .word w => some [.command w]
  | .absorbBytes h bs => some (asActions (Machine.absorbBytes h bs))
  | .newWith _ => none
  | .hash _ => none

end Sys2Proof.Machine.Asm
end

