-- ==== Sys2Proof/Machine/Cost.lean ====
section
/-! DEFINITION. The number of permutations each command runs (70_reset_and_hazards R97, 41_sponge R79). It is no timing, and
no meaning reads it (log entry 15, DEDUCED, safe). -/

namespace Sys2Proof.Machine

/-- The cursor of the context a handle names; 0 where it names none. -/
def cursorAt (s : State) (h : Byte) : Nat :=
  match s.ctx[h.toNat]? with
  | some c => c.cur.val
  | none => 0

/-- Permutations run by the body of a command (70_reset_and_hazards R97). -/
def permutationsOf (i : Instr) (s : State) : Nat :=
  match i with
  | .new => 0
  | .absorb h _ => if cursorAt s h = 135 then 1 else 0
  | .digest _ => 1
  | .copy _ => 0
  | .drop _ => 0

/-- Permutations run on a command word: none when the command ends with another status than OK (70_reset_and_hazards
R97). -/
def permutationsRun (w : Word) (s : State) : Nat :=
  match decode w with
  | .ok i => if checkWord s w = .ok then permutationsOf i s else 0
  | .error _ => 0

/-- Permutations run while bytes are absorbed into a context from a cursor, one `ABSORB` a byte (41_sponge R79). -/
def permutationsAbsorbing (cur : Nat) : List Byte → Nat
  | [] => 0
  | _ :: bs => if cur = 135 then 1 + permutationsAbsorbing 0 bs else permutationsAbsorbing (cur + 1) bs

/-- Permutations the next step runs: those of the command word the host issues next, and none for a reset or an idle host
(70_reset_and_hazards R97). -/
def permutationsNext (s : State) : Nat :=
  match takeAction s with
  | some (.command w, t) => permutationsRun w t
  | some (.reset, _) => 0
  | none => 0

/-- Permutations run during the next `n` steps. -/
def permutationsDuring : Nat → State → Nat
  | 0, _ => 0
  | n + 1, s =>
    permutationsNext s +
      match step s with
      | .next t => permutationsDuring n t
      | .fault _ => 0
      | .refused _ => 0

end Sys2Proof.Machine
end

