-- ==== Sys2Proof/Safety.lean ====
section
/-! DEFINITION. The terms of claims about the block: its invariant (10_state R23), a faulted run (93_implementation_defined
I2), what a run shows (41_sponge R82), and the block-wise reading of SHA3-256 that the sponge commands are held to
(00_scope R1, R9; 41_sponge R77). -/

namespace Sys2Proof.Machine

/-- The block has between 1 and 256 contexts (00_scope R7), and a context that is not live has all lanes 0 and cursor 0
(10_state R23(b)). That every cursor is less than 136 (R23(a)) holds by the type of the cursor. -/
abbrev State.Inv (s : State) : Prop :=
  1 ≤ s.ctx.length ∧ s.ctx.length ≤ 256 ∧ ∀ c ∈ s.ctx, c.live = false → c = Context.free

/-- A run that has reached `FATAL` = 1 is faulted, not final (93_implementation_defined I2). -/
abbrev State.faulted (s : State) : Prop := s.fatal = true

/-- `n` steps of the block. -/
def runSteps (n : Nat) (s : State) : Host.Outcome State Fault Refusal := Host.Core.run core n s

/-- The host is to issue these actions and nothing else. -/
def withHost (as : List HostAction) (s : State) : State := { s with inbox := as }

/-- The action issues a command that names context `h` as its handle operand. -/
def namesHandle (h : Byte) : HostAction → Bool
  | .reset => false
  | .command w =>
    match decode w with
    | .ok i => i.handle? == some h
    | .error _ => false

/-- The host's next action is an allocation that takes context `h`: a `NEW`, or a `COPY` of a live handle, on a serving block
whose least free context is `h` (41_sponge R70, R73). -/
def allocatesNext (h : Byte) (s : State) : Bool :=
  match s.inbox with
  | .command w :: _ =>
    match decode w with
    | .ok .new => !s.fatal && freeContext s == some h.toNat
    | .ok (.copy k) => !s.fatal && (liveContext s k).isSome && freeContext s == some h.toNat
    | _ => false
  | _ => false

/-- The action issues a `DIGEST`. -/
def isDigest : HostAction → Bool
  | .reset => false
  | .command w =>
    match decode w with
    | .ok (.digest _) => true
    | _ => false

/-- The padded message, as a byte sequence whose length is a multiple of the rate: 0x06, zero or more 0x00, 0x80, or the one
byte 0x86 (00_scope R9 Pad10*1, 41_sponge R66; log entry 14, PRESUMED from FIPS 202,
unsafe). -/
def padMessage (m : List Byte) : List Byte :=
  let q := Config.rate - m.length % Config.rate
  if q = 1 then m ++ [Config.dsByte ^^^ Config.padLast]
  else m ++ Config.dsByte :: (List.replicate (q - 2) 0 ++ [Config.padLast])

/-- Bytes XORed into a state from byte k on; those past its 200 bytes are left out. -/
def xorBytes (A : Lanes) (k : Nat) : List Byte → Lanes
  | [] => A
  | b :: bs => xorBytes (if h : k < 200 then xorStateByte A ⟨k, h⟩ b else A) (k + 1) bs

/-- The first `n` blocks of 136 bytes, each XORed into the rate before a permutation (00_scope R9 Sponge construction). -/
def absorbBlocks (A : Lanes) : Nat → List Byte → Lanes
  | 0, _ => A
  | n + 1, m => absorbBlocks (keccakF (xorBytes A 0 (m.take Config.rate))) n (m.drop Config.rate)

/-- SHA3-256 read block by block: the padded message is absorbed a rate-sized block at a time, and the first 32 bytes of the
state are the digest (log entry 14, PRESUMED, unsafe). -/
def sha3 (m : List Byte) : Digest :=
  squeeze (absorbBlocks zeroLanes (m.length / Config.rate + 1) (padMessage m))

/-- Absorb a byte sequence into lanes and a cursor, one byte after the other (41_sponge R75). -/
def absorbSeq (p : Lanes × Fin 136) (bs : List Byte) : Lanes × Fin 136 :=
  bs.foldl (fun p b => absorbByte p.1 p.2 b) p

end Sys2Proof.Machine
end

