-- ==== Sys2Proof/Certificates/Slice0/Obligations.lean ====
section
/-! DEFINITION. What is claimed of the block, for the provers. Each statement's docstring names the rules of spec/ it
formalises. -/

open Sys2Proof Sys2Proof.Machine

/-! ### Encoding -/

/-- When the word the host issues next decodes to a command, the step is that command's meaning on the state with the word
taken from the inbox (20_memory R34, 30_encoding R48). -/
def Obligations.StepRunsTheDecodedCommand : Prop :=
  ∀ (s : State) (w : Word) (rest : List HostAction) (i : Instr),
    s.inbox = .command w :: rest → decode w = .ok i → step s = exec i { s with inbox := rest }

/-- Words written out bit by bit from the opcode map and the encoding lines of 41_sponge R70 to R74. -/
def Obligations.SampleWordsDecode : Prop :=
  decode 0b00010000000000000000000000000000 = .ok .new ∧
  decode 0b00100000000000000000000101100100 = .ok (.absorb 0x01 0x64) ∧
  decode 0b00100000000000001111111100000000 = .ok (.absorb 0xFF 0x00) ∧
  decode 0b00110000000000000000000100000000 = .ok (.digest 0x01) ∧
  decode 0b01000000000000001000000000000000 = .ok (.copy 0x80) ∧
  decode 0b01010000000000000000000100000000 = .ok (.drop 0x01)

/-- Every command is well formed, and its word decodes to it with every operand at every value of its field
(30_encoding R41, R42). -/
def Obligations.DecodeOfEncodeIsTheCommand : Prop :=
  ∀ i : Instr, i.wellFormed = true ∧ decode (encode i) = .ok i

/-- A word that decodes to a command is that command's word: each command has one word (30_encoding R42, R45). -/
def Obligations.EncodeOfDecodeIsTheWord : Prop :=
  ∀ (w : Word) (i : Instr), decode w = .ok i → encode i = w

/-- A word decodes to a command exactly when it matches a row of the opcode map, the row it matches is the one of its
command's mnemonic, and no word matches two rows (30_encoding R42). -/
def Obligations.DecoderAgreesWithOpcodeMap : Prop :=
  (∀ w : Word, (∃ i, decode w = .ok i) ↔ ∃ r ∈ opcodeRows, rowMatches w r = true) ∧
  (∀ (w : Word) (i : Instr), decode w = .ok i →
    ∀ r ∈ opcodeRows, rowMatches w r = true ↔ r.mnemonic = mnemonic i) ∧
  (∀ w : Word, ∀ r ∈ opcodeRows, ∀ r' ∈ opcodeRows, rowMatches w r = true → rowMatches w r' = true → r = r')

/-- The illegal words are those of 30_encoding R44, which are those that match no row; each is rejected with status ILLEGAL
and changes no state, on a block whose `FATAL` is 0 (60_exceptions R84 puts HALTED first). -/
def Obligations.IllegalWordsAreRejected : Prop :=
  ∀ w : Word,
    ((∃ e, decode w = .error e) ↔
      (fieldOp w = 0 ∨ 6 ≤ (fieldOp w).toNat ∨ fieldRsv w ≠ 0 ∨
        (fieldOp w = 1 ∧ fieldH w ≠ 0) ∨ (fieldOp w ≠ 2 ∧ fieldD w ≠ 0))) ∧
    ((∃ e, decode w = .error e) ↔ ∀ r ∈ opcodeRows, rowMatches w r = false) ∧
    (∀ (s : State) (rest : List HostAction) (e : Illegal),
      s.inbox = .command w :: rest → decode w = .error e → s.fatal = false →
        step s = .next { s with
          inbox := rest
          responses := s.responses ++ [{ status := .illegal, handle := 0, payload := zeroPayload }] })

/-- The well-formedness check of the four raw fields accepts exactly the words the decoder accepts (30_encoding R40, R43). -/
def Obligations.DecoderAgreesWithFieldCheck : Prop :=
  ∀ w : Word, (∃ i, decode w = .ok i) ↔ (Fields.ofWord w).wellFormed = true

/-! ### The Permutation Engine -/

/-- `ROTL64`: bit j of the result is bit (j − n) mod 64 of the operand (00_scope R8). -/
def Obligations.RotationMovesBitsUp : Prop :=
  ∀ (v : Lane) (n j : Nat), j < 64 → (rotl64 v n).getLsbD j = v.getLsbD ((j + 64 - n % 64) % 64)

/-- θ: its formula, its fixed states, and its worked example (40_permutation R52). The spec marks the formula "[from general
knowledge, not in source]". -/
def Obligations.ThetaXorsColumnParities : Prop :=
  (∀ (A : Lanes) (x y : Nat), x < 5 → y < 5 →
    laneAt (theta A) x y =
      laneAt A x y ^^^
        ((laneAt A ((x + 4) % 5) 0 ^^^ laneAt A ((x + 4) % 5) 1 ^^^ laneAt A ((x + 4) % 5) 2 ^^^
            laneAt A ((x + 4) % 5) 3 ^^^ laneAt A ((x + 4) % 5) 4) ^^^
          rotl64 (laneAt A ((x + 1) % 5) 0 ^^^ laneAt A ((x + 1) % 5) 1 ^^^ laneAt A ((x + 1) % 5) 2 ^^^
            laneAt A ((x + 1) % 5) 3 ^^^ laneAt A ((x + 1) % 5) 4) 1)) ∧
  theta zeroLanes = zeroLanes ∧
  theta (Vector.replicate 25 (BitVec.allOnes 64)) = Vector.replicate 25 (BitVec.allOnes 64) ∧
  (∀ A : Lanes,
    (∀ x < 5, laneAt A x 0 ^^^ laneAt A x 1 ^^^ laneAt A x 2 ^^^ laneAt A x 3 ^^^ laneAt A x 4 = 0) → theta A = A) ∧
  (∀ x < 5, ∀ y < 5, laneAt (theta (zeroLanes.set 0 0x1)) x y =
    if x = 0 ∧ y = 0 then 0x1 else if x = 1 then 0x1 else if x = 4 then 0x2 else 0)

/-- The rho offsets are the output of the generator, lane by lane (40_permutation R54). The spec marks the generator "[from
general knowledge, not in source]". -/
def Obligations.RhoTableEqualsItsGenerator : Prop :=
  ∀ i : Fin 25, rhoOffsets[i] = rhoGenerated i.val

/-- ρ rotates each lane left by its offset and moves none; `A[0,0]` is never rotated, and a lane of all zeros or all ones is
unchanged (40_permutation R55). The spec marks the direction "[from general knowledge, not in source]". -/
def Obligations.RhoRotatesEachLane : Prop :=
  (∀ (A : Lanes) (x y : Nat) (hx : x < 5) (hy : y < 5),
    laneAt (rho A) x y = rotl64 (laneAt A x y) (rhoOffsets[x + 5 * y]'(by omega))) ∧
  (∀ A : Lanes, laneAt (rho A) 0 0 = laneAt A 0 0) ∧
  (∀ (A : Lanes) (x y : Nat), x < 5 → y < 5 →
    (laneAt A x y = 0 ∨ laneAt A x y = BitVec.allOnes 64) → laneAt (rho A) x y = laneAt A x y) ∧
  (∀ i : Fin 25, (rho (Vector.replicate 25 0x1))[i] = 0x1 <<< rhoOffsets[i])

/-- π: its mapping read from destination and from source, its table of linear indices, and its one fixed point
(40_permutation R56). The spec marks the mapping "[from general knowledge, not in source]", and the one fixed point
"[derived: from the table]". -/
def Obligations.PiPermutesLanePositions : Prop :=
  (∀ (A : Lanes) (x y : Nat), x < 5 → y < 5 → laneAt (pi A) x y = laneAt A ((x + 3 * y) % 5) x) ∧
  (∀ (A : Lanes) (x y : Nat), x < 5 → y < 5 → laneAt (pi A) y ((2 * x + 3 * y) % 5) = laneAt A x y) ∧
  (∀ (A : Lanes) (i : Fin 25),
    (pi A)[i] = A[piSource[i]]) ∧
  (∀ x < 5, ∀ y < 5, ((x + 3 * y) % 5 = x ∧ x = y) ↔ (x = 0 ∧ y = 0))

/-- χ: its formula, its fixed states, and its worked example (40_permutation R57). The spec marks the two positions "[from
general knowledge, not in source]". -/
def Obligations.ChiMixesEachRow : Prop :=
  (∀ (A : Lanes) (x y : Nat), x < 5 → y < 5 →
    laneAt (chi A) x y = laneAt A x y ^^^ (~~~ laneAt A ((x + 1) % 5) y &&& laneAt A ((x + 2) % 5) y)) ∧
  chi zeroLanes = zeroLanes ∧
  chi (Vector.replicate 25 (BitVec.allOnes 64)) = Vector.replicate 25 (BitVec.allOnes 64) ∧
  chi #v[0x0F, 0x33, 0x55, 0xFF, 0x00, 0, 0, 0, 0, 0, 0, 0, 0, 0, 0, 0, 0, 0, 0, 0, 0, 0, 0, 0, 0] =
    #v[0x4B, 0x99, 0x55, 0xF0, 0x30, 0, 0, 0, 0, 0, 0, 0, 0, 0, 0, 0, 0, 0, 0, 0, 0, 0, 0, 0, 0]

/-- The round constants are the output of the generator, and no bit other than 0, 1, 3, 7, 15, 31 and 63 is set in one
(40_permutation R59). The spec marks the generator "[from general knowledge, not in source]". -/
def Obligations.RoundConstantsEqualTheirGenerator : Prop :=
  ∀ ir : Fin 24, roundConstant ir = rcGenerated ir.val ∧ roundConstant ir &&& 0x7FFFFFFF7FFF7F74 = 0

/-- ι XORs the round constant into lane (0,0) and changes no other lane; twice with one index restores the state
(40_permutation R60). -/
def Obligations.IotaChangesOnlyLaneZero : Prop :=
  (∀ (A : Lanes) (ir : Fin 24), laneAt (iota A ir) 0 0 = laneAt A 0 0 ^^^ roundConstant ir) ∧
  (∀ (A : Lanes) (ir : Fin 24) (x y : Nat), x < 5 → y < 5 → ¬(x = 0 ∧ y = 0) →
    laneAt (iota A ir) x y = laneAt A x y) ∧
  (∀ (A : Lanes) (ir : Fin 24), iota (iota A ir) ir = A) ∧
  iota zeroLanes 0 = zeroLanes.set 0 0x1 ∧
  round zeroLanes 0 = zeroLanes.set 0 0x1

/-- KeccakF is the last of a chain of states that starts with its operand and goes on by one round for each ir = 0, 1, …, 23
in that order, each round the five step mappings in fixed order (40_permutation R61, R62). -/
def Obligations.KeccakRunsRoundsZeroToTwentyThree : Prop :=
  (∀ (A : Lanes) (ir : Fin 24), round A ir = iota (chi (pi (rho (theta A)))) ir) ∧
  ∀ (S : Nat → Lanes), (∀ ir : Fin 24, S (ir.val + 1) = round (S ir.val) ir) → keccakF (S 0) = S 24

/-! ### The byte view and the pure functions of the controller -/

/-- Bit i of StateByte k is bit 8·(k mod 8) + i of lane k div 8, and XorStateByte XORs its byte there and leaves every other
lane (20_memory R25). -/
def Obligations.ByteViewIsLittleEndianInLanes : Prop :=
  (∀ (A : Lanes) (k : Fin 200) (i : Nat), i < 8 →
    (stateByte A k).getLsbD i = (A[k.val / 8]'(by omega)).getLsbD (8 * (k.val % 8) + i)) ∧
  (∀ (A : Lanes) (k : Fin 200) (b : Byte) (l : Fin 25) (i : Nat), i < 64 →
    ((xorStateByte A k b)[l]).getLsbD i =
      if l.val = k.val / 8 ∧ 8 * (k.val % 8) ≤ i ∧ i < 8 * (k.val % 8) + 8
      then (A[l].getLsbD i ^^ b.getLsbD (i - 8 * (k.val % 8)))
      else A[l].getLsbD i)

/-- A byte read after XorStateByte: the byte written is XORed, every other of the 200 bytes is as before; twice with the
same byte restores the state (20_memory R25, vector V-B5). -/
def Obligations.XoredByteReadsBackAndOthersStay : Prop :=
  (∀ (A : Lanes) (k j : Fin 200) (b : Byte),
    stateByte (xorStateByte A k b) j = if j = k then stateByte A k ^^^ b else stateByte A j) ∧
  (∀ (A : Lanes) (k : Fin 200) (b : Byte), xorStateByte (xorStateByte A k b) k b = A)

/-- AbsorbByte below a full block XORs the byte and advances the cursor; at cursor 135 the permutation runs on the full state
and the cursor is 0 (41_sponge R65). -/
def Obligations.AbsorbByteAdvancesOrPermutes : Prop :=
  ∀ (A : Lanes) (cur : Fin 136) (b : Byte),
    (cur.val = 135 → absorbByte A cur b = (keccakF (xorStateByte A (rateByte cur) b), 0)) ∧
    (cur.val < 135 → (absorbByte A cur b).1 = xorStateByte A (rateByte cur) b ∧
      (absorbByte A cur b).2.val = cur.val + 1)

/-- Pad XORs 0x06 at the cursor and 0x80 at byte 135, which receives 0x86 when they are one byte, and changes no other byte:
none of the capacity (41_sponge R66). -/
def Obligations.PadMarksCursorAndLastRateByte : Prop :=
  ∀ (A : Lanes) (cur : Fin 136) (k : Fin 200),
    stateByte (pad A cur) k =
      if k.val = 135 then stateByte A k ^^^ (if cur.val = 135 then 0x86 else 0x80)
      else if k.val = cur.val then stateByte A k ^^^ 0x06
      else stateByte A k

/-- The digest of a context is bytes 0 to 31 of its padded and permuted state in array order: byte j is byte j mod 8 of lane
j div 8, least significant first (41_sponge R67, R68; 20_memory R29). -/
def Obligations.DigestBytesComeFromLanesZeroToThree : Prop :=
  ∀ (A : Lanes) (cur : Fin 136) (j i : Nat) (hj : j < 32), i < 8 →
    (digestOf A cur)[j] = stateByte (keccakF (pad A cur)) ⟨j, by omega⟩ ∧
    ((digestOf A cur)[j]).getLsbD i =
      ((keccakF (pad A cur))[j / 8]'(by omega)).getLsbD (8 * (j % 8) + i)

/-! ### The commands -/

/-- NEW on a serving block with a free context completes: the least free context is live with zero lanes and cursor 0, its
number is answered, and nothing else changes (41_sponge R70). -/
def Obligations.NewAllocatesLeastFreeContext : Prop :=
  ∀ (s : State) (j : Nat) (c : Context),
    s.fatal = false → s.ctx[j]? = some c → c.live = false →
    (∀ (k : Nat) (d : Context), k < j → s.ctx[k]? = some d → d.live = true) →
      exec .new s = .next { s with
        ctx := s.ctx.set j { live := true, lanes := Vector.replicate 25 0, cur := 0 }
        responses := s.responses ++
          [{ status := .ok, handle := BitVec.ofNat 8 j, payload := Vector.replicate 32 0 }] }

/-- ABSORB on a serving block with a live handle completes, for every byte: the lanes and the cursor of that context are those
of AbsorbByte, and nothing else changes (41_sponge R71). -/
def Obligations.AbsorbWritesItsContext : Prop :=
  ∀ (s : State) (h b : Byte) (c : Context),
    s.fatal = false → s.ctx[h.toNat]? = some c → c.live = true →
      exec (.absorb h b) s = .next { s with
        ctx := s.ctx.set h.toNat
          { live := true, lanes := (absorbByte c.lanes c.cur b).1, cur := (absorbByte c.lanes c.cur b).2 }
        responses := s.responses ++ [{ status := .ok, handle := 0, payload := Vector.replicate 32 0 }] }

/-- DIGEST on a serving block with a live handle completes: it answers the digest of the context's lanes and cursor and
writes no state (41_sponge R72). -/
def Obligations.DigestAnswersAndWritesNothing : Prop :=
  ∀ (s : State) (h : Byte) (c : Context),
    s.fatal = false → s.ctx[h.toNat]? = some c → c.live = true →
      exec (.digest h) s = .next { s with
        responses := s.responses ++
          [{ status := .ok, handle := 0, payload := squeeze (keccakF (pad c.lanes c.cur)) }] }

/-- COPY of a live handle on a serving block with a free context completes: the least free context is a live duplicate of the
source, its number is answered, and nothing else changes (41_sponge R73). -/
def Obligations.CopyDuplicatesIntoLeastFreeContext : Prop :=
  ∀ (s : State) (h : Byte) (c : Context) (j : Nat) (d : Context),
    s.fatal = false → s.ctx[h.toNat]? = some c → c.live = true →
    s.ctx[j]? = some d → d.live = false →
    (∀ (k : Nat) (e : Context), k < j → s.ctx[k]? = some e → e.live = true) →
      j ≠ h.toNat ∧
      exec (.copy h) s = .next { s with
        ctx := s.ctx.set j { live := true, lanes := c.lanes, cur := c.cur }
        responses := s.responses ++
          [{ status := .ok, handle := BitVec.ofNat 8 j, payload := Vector.replicate 32 0 }] }

/-- DROP of a live handle on a serving block completes: that context is free with zero lanes and cursor 0, and nothing else
changes (41_sponge R74). -/
def Obligations.DropFreesAndZeroesItsContext : Prop :=
  ∀ (s : State) (h : Byte) (c : Context),
    s.fatal = false → s.ctx[h.toNat]? = some c → c.live = true →
      exec (.drop h) s = .next { s with
        ctx := s.ctx.set h.toNat { live := false, lanes := Vector.replicate 25 0, cur := 0 }
        responses := s.responses ++ [{ status := .ok, handle := 0, payload := Vector.replicate 32 0 }] }

/-- A handle at or above NUM_CTX, or of a context that is not live, answers BAD_HANDLE for each command that takes a handle,
and changes nothing (60_exceptions R83, R84; 30_encoding R41). -/
def Obligations.DeadHandleAnswersBadHandle : Prop :=
  ∀ (s : State) (i : Instr) (h : Byte),
    s.fatal = false → i.handle? = some h →
    (s.ctx.length ≤ h.toNat ∨ ∃ c, s.ctx[h.toNat]? = some c ∧ c.live = false) →
      exec i s = .next { s with
        responses := s.responses ++
          [{ status := .badHandle, handle := 0, payload := Vector.replicate 32 0 }] }

/-- NEW, or COPY of a live handle, that finds no free context sets FATAL, changes no context and answers EXHAUSTED
(60_exceptions R86). -/
def Obligations.ExhaustionSetsFatal : Prop :=
  ∀ (s : State) (i : Instr),
    s.fatal = false → (∀ c ∈ s.ctx, c.live = true) →
    (i = .new ∨ ∃ h, i = .copy h ∧ h.toNat < s.ctx.length) →
      exec i s = .next { s with
        fatal := true
        responses := s.responses ++
          [{ status := .exhausted, handle := 0, payload := Vector.replicate 32 0 }] }

/-- While FATAL is 1 every command word, legal or not, answers HALTED and changes no state (60_exceptions R87). -/
def Obligations.FatalBlockAnswersHalted : Prop :=
  ∀ (s : State) (w : Word) (rest : List HostAction),
    s.fatal = true → s.inbox = .command w :: rest →
      step s = .next { s with
        inbox := rest
        responses := s.responses ++ [{ status := .halted, handle := 0, payload := Vector.replicate 32 0 }] }

/-! ### The whole block -/

/-- Every command word produces exactly one response, whose status is that of the first check that fails, in the fixed order;
with status OK the step is the body of the command (60_exceptions R84). -/
def Obligations.ResponseStatusFollowsCheckOrder : Prop :=
  ∀ (s : State) (w : Word) (rest : List HostAction),
    s.inbox = .command w :: rest →
      ∃ t r, step s = .next t ∧ t.inbox = rest ∧ t.responses = s.responses ++ [r] ∧
        (r.status =
          if s.fatal = true then .halted
          else if ∀ row ∈ opcodeRows, rowMatches w row = false then .illegal
          else if (fieldOp w = 2 ∨ fieldOp w = 3 ∨ fieldOp w = 4 ∨ fieldOp w = 5) ∧
              (s.ctx.length ≤ (fieldH w).toNat ∨ (s.ctx[(fieldH w).toNat]?).map (·.live) = some false) then .badHandle
          else if (fieldOp w = 1 ∨ fieldOp w = 4) ∧ ∀ c ∈ s.ctx, c.live = true then .exhausted
          else .ok) ∧
        (r.status = .ok → ∃ i, decode w = .ok i ∧ exec i { s with inbox := rest } = .next t)

/-- A command that ends with ILLEGAL, BAD_HANDLE or HALTED changes no state (60_exceptions R85). -/
def Obligations.RejectedCommandsChangeNothing : Prop :=
  ∀ (s : State) (w : Word) (rest : List HostAction),
    s.inbox = .command w :: rest →
      ∃ t r, step s = .next t ∧ t.responses = s.responses ++ [r] ∧
        ((r.status = .illegal ∨ r.status = .badHandle ∨ r.status = .halted) →
          t.ctx = s.ctx ∧ t.fatal = s.fatal)

/-- The response to every command word: HANDLE is the allocated handle of a NEW or COPY that ends with OK and 0 otherwise, the
payload is the digest of a DIGEST that ends with OK and zero otherwise; and where the fields stand in the response word, with
the status codes (30_encoding R46, R47). -/
def Obligations.ResponseFieldsAreFixed : Prop :=
  (∀ (s : State) (w : Word) (rest : List HostAction),
    s.inbox = .command w :: rest →
      ∃ t r, step s = .next t ∧ t.responses = s.responses ++ [r] ∧
        ((r.status = .ok ∧ (fieldOp w = 1 ∨ fieldOp w = 4)) →
          ∃ j, freeContext s = some j ∧ r.handle = BitVec.ofNat 8 j) ∧
        (¬(r.status = .ok ∧ (fieldOp w = 1 ∨ fieldOp w = 4)) → r.handle = 0) ∧
        ((r.status = .ok ∧ fieldOp w = 3) →
          ∃ c, s.ctx[(fieldH w).toNat]? = some c ∧ r.payload = digestOf c.lanes c.cur) ∧
        (¬(r.status = .ok ∧ fieldOp w = 3) → r.payload = Vector.replicate 32 0)) ∧
  (∀ r : Response,
    r.word.extractLsb' 0 4 = r.status.code ∧ r.word.extractLsb' 4 4 = 0 ∧
    r.word.extractLsb' 8 8 = r.handle ∧ r.word.extractLsb' 16 16 = 0) ∧
  (Status.ok.code = 0x0 ∧ Status.illegal.code = 0x1 ∧ Status.badHandle.code = 0x2 ∧
    Status.exhausted.code = 0x3 ∧ Status.halted.code = 0x4 ∧ ∀ st : Status, st.code.toNat ≤ 4)

/-- What a command leaves unchanged: the number of contexts, the host's inbox, the responses so far, every context but the one
it names (ABSORB, DROP) or allocates (NEW, COPY), and FATAL but for an allocation on a full block; DIGEST changes no context
(10_state R13, R20; 20_memory R39). -/
def Obligations.CommandsKeepOtherContexts : Prop :=
  ∀ (i : Instr) (s t : State), exec i s = .next t →
    t.ctx.length = s.ctx.length ∧ t.inbox = s.inbox ∧ (∃ r, t.responses = s.responses ++ [r]) ∧
    (∀ j : Nat, t.ctx[j]? ≠ s.ctx[j]? →
      t.fatal = false ∧
      ((∃ h b, i = .absorb h b ∧ j = h.toNat) ∨ (∃ h, i = .drop h ∧ j = h.toNat) ∨
        ((i = .new ∨ ∃ h, i = .copy h) ∧ freeContext s = some j))) ∧
    (t.fatal ≠ s.fatal →
      t.fatal = true ∧ t.ctx = s.ctx ∧ (i = .new ∨ ∃ h, i = .copy h) ∧ ∀ c ∈ s.ctx, c.live = true)

/-- ABSORB that does not fill the block: of the 200 bytes of its context's state only byte CUR changes, none of the capacity,
and the byte is XORed; the cursor advances by one (20_memory R27, 41_sponge R71). -/
def Obligations.AbsorbBelowFullBlockChangesOneByte : Prop :=
  ∀ (s : State) (h b : Byte) (c : Context),
    s.fatal = false → s.ctx[h.toNat]? = some c → c.live = true → c.cur.val < 135 →
      ∃ t d, exec (.absorb h b) s = .next t ∧ t.ctx[h.toNat]? = some d ∧ d.live = true ∧
        d.cur.val = c.cur.val + 1 ∧
        ∀ k : Fin 200, stateByte d.lanes k =
          if k.val = c.cur.val then stateByte c.lanes k ^^^ b else stateByte c.lanes k

/-- A command that names a handle reads only that context: on two serving blocks whose contexts of that number are equal,
ABSORB, DIGEST and DROP give the same response and leave that context equal (10_state R20). -/
def Obligations.NamedCommandsReadOnlyTheirContext : Prop :=
  ∀ (s s' t t' : State) (i : Instr) (h : Byte),
    s.fatal = false → s'.fatal = false → s.ctx[h.toNat]? = s'.ctx[h.toNat]? → s.responses = s'.responses →
    ((∃ b, i = .absorb h b) ∨ i = .digest h ∨ i = .drop h) →
    exec i s = .next t → exec i s' = .next t' →
      t.responses = t'.responses ∧ t.ctx[h.toNat]? = t'.ctx[h.toNat]?

/-- Reset as a host action: every context free, all zero, FATAL 0, and no response (70_reset_and_hazards R94). -/
def Obligations.ResetActionClearsTheBlock : Prop :=
  ∀ (s : State) (rest : List HostAction), s.inbox = .reset :: rest →
    ∃ t, step s = .next t ∧ t.ctx.length = s.ctx.length ∧
      (∀ c ∈ t.ctx, c.live = false ∧ (∀ l : Fin 25, c.lanes[l] = 0) ∧ c.cur = 0) ∧
      t.fatal = false ∧ t.responses = s.responses ∧ t.inbox = rest

/-- The values reset leaves, for every number of contexts the parameter allows and for the block's own (10_state R22). -/
def Obligations.ResetValuesAreZero : Prop :=
  (∀ n : Nat,
    (State.resetWith n).ctx.length = n ∧
    (∀ c ∈ (State.resetWith n).ctx, c.live = false ∧ (∀ l : Fin 25, c.lanes[l] = 0) ∧ c.cur = 0) ∧
    (State.resetWith n).fatal = false) ∧
  State.reset = State.resetWith Config.numCtx ∧ 1 ≤ Config.numCtx ∧ Config.numCtx ≤ 256

/-- The invariant holds after reset, for every number of contexts (10_state R23). -/
def Obligations.ResetMeetsTheInvariant : Prop :=
  State.reset.Inv ∧ ∀ n : Nat, 1 ≤ n → n ≤ 256 → (State.resetWith n).Inv

/-- Every step keeps the invariant, from every state that meets it: free contexts stay all zero (10_state R23(b)), and the
number of contexts does not change (10_state R10). R23(a) holds by the type of the cursor. -/
def Obligations.EveryStepKeepsTheInvariant : Prop :=
  ∀ s t : State, s.Inv → step s = .next t → t.Inv ∧ t.ctx.length = s.ctx.length

/-- Every step, and every run of steps, answers a next state: no fault, no refusal, no stuck state (41_sponge R82,
60_exceptions R90). -/
def Obligations.EveryRunAnswersNextState : Prop :=
  ∀ (s : State) (n : Nat), (∃ t, step s = .next t) ∧ ∃ t, runSteps n s = .next t

/-- While the host takes no action nothing changes. This is the model's own choice (log entry 3). -/
def Obligations.IdleBlockKeepsItsState : Prop :=
  ∀ s : State, s.inbox = [] → ∀ n : Nat, runSteps n s = .next s

/-- A faulted block stays faulted: without a reset action, every later command answers HALTED and no state changes, however
long the run; a reset clears FATAL, and the contents of the contexts are lost (60_exceptions R87, 10_state R23(c)). -/
def Obligations.FatalLastsUntilReset : Prop :=
  (∀ (n : Nat) (s : State), s.faulted → HostAction.reset ∉ s.inbox →
    ∃ t, runSteps n s = .next t ∧ t.faulted ∧ t.ctx = s.ctx ∧
      t.responses = s.responses ++
        List.replicate (min n s.inbox.length)
          { status := .halted, handle := 0, payload := Vector.replicate 32 0 }) ∧
  ∀ (s : State) (rest : List HostAction), s.faulted → s.inbox = .reset :: rest →
    ∃ t, step s = .next t ∧ ¬t.faulted ∧ ∀ c ∈ t.ctx, c = Context.free

/-! ### Laws of hashing -/

/-- Two DIGEST of one handle in a row answer the same payload, and the second leaves the state as the first did
(20_memory R32, 41_sponge R76). -/
def Obligations.DigestIsIdempotent : Prop :=
  ∀ (s : State) (h : Byte) (c : Context),
    s.fatal = false → s.ctx[h.toNat]? = some c → c.live = true →
      ∃ t u r, exec (.digest h) s = .next t ∧ exec (.digest h) t = .next u ∧
        t.ctx = s.ctx ∧ u.ctx = s.ctx ∧ t.fatal = false ∧ u.fatal = false ∧
        r.status = .ok ∧ u.responses = s.responses ++ [r, r]

/-- DIGEST is a projection: any sequence of host actions with every DIGEST removed leaves every context and FATAL as the whole
sequence does (41_sponge R76). -/
def Obligations.RemovingDigestsKeepsTheBlock : Prop :=
  ∀ (s : State) (as : List HostAction),
    ∃ t u, runSteps as.length (withHost as s) = .next t ∧
      runSteps (as.filter fun a => !isDigest a).length (withHost (as.filter fun a => !isDigest a) s) = .next u ∧
      t.ctx = u.ctx ∧ t.fatal = u.fatal

/-- ABSORB.BYTES as a run: one step a byte leaves the named context at the absorption of the bytes in order, answers OK for each
byte and leaves the rest of the block; and absorbing is concatenative (41_sponge R75, 30_encoding R50). -/
def Obligations.AbsorbBytesRunsByteByByte : Prop :=
  (∀ (s : State) (h : Byte) (c : Context) (m : List Byte),
    s.fatal = false → s.inbox = [] → s.ctx[h.toNat]? = some c → c.live = true →
      runSteps m.length (issueAll (absorbBytes h m) s) = .next { s with
        ctx := s.ctx.set h.toNat
          { live := true, lanes := (absorbSeq (c.lanes, c.cur) m).1, cur := (absorbSeq (c.lanes, c.cur) m).2 }
        responses := s.responses ++
          List.replicate m.length { status := .ok, handle := 0, payload := Vector.replicate 32 0 } }) ∧
  ∀ (s : State) (h : Byte) (c : Context) (a b : List Byte),
    s.fatal = false → s.inbox = [] → s.ctx[h.toNat]? = some c → c.live = true →
      ∃ t, runSteps a.length (issueAll (absorbBytes h a) s) = .next t ∧
        runSteps b.length (issueAll (absorbBytes h b) t) =
          runSteps (a ++ b).length (issueAll (absorbBytes h (a ++ b)) s)

/-- How many times absorbing runs the permutation (41_sponge R78, R79). The count is `permutationsAbsorbing`, a number beside the
machine (log entry 15), and it is tied to the machine four ways: for one byte it is 1 exactly when AbsorbByte permutes; it adds
up over concatenation; it is the sum of the counts of the steps of ABSORB.BYTES; and from cursor 0 the lanes are those after one
KeccakF for each full block, with the bytes left over XORed in. -/
def Obligations.AbsorbingCountsPermutations : Prop :=
  (∀ (A : Lanes) (cur : Fin 136) (m : List Byte),
    permutationsAbsorbing cur.val m = (cur.val + m.length) / 136 ∧
    (absorbSeq (A, cur) m).2.val = (cur.val + m.length) % 136) ∧
  (∀ (m : List Byte) (k : Nat), m.length = 136 * k →
    absorbSeq (zeroLanes, 0) m = (absorbBlocks zeroLanes k m, 0) ∧ permutationsAbsorbing 0 m = k) ∧
  (∀ (A : Lanes) (cur : Fin 136) (b : Byte),
    (permutationsAbsorbing cur.val [b] = 1 ∧ (absorbByte A cur b).1 = keccakF (xorStateByte A (rateByte cur) b)) ∨
    (permutationsAbsorbing cur.val [b] = 0 ∧ (absorbByte A cur b).1 = xorStateByte A (rateByte cur) b)) ∧
  (∀ (A : Lanes) (cur : Fin 136) (a b : List Byte),
    permutationsAbsorbing cur.val (a ++ b) =
      permutationsAbsorbing cur.val a + permutationsAbsorbing (absorbSeq (A, cur) a).2.val b) ∧
  (∀ (s : State) (h : Byte) (c : Context) (m : List Byte),
    s.fatal = false → s.inbox = [] → s.ctx[h.toNat]? = some c → c.live = true →
      permutationsDuring m.length (issueAll (absorbBytes h m) s) = permutationsAbsorbing c.cur.val m) ∧
  ∀ (A : Lanes) (m : List Byte),
    (absorbSeq (A, 0) m).1 = xorBytes (absorbBlocks A (m.length / 136) m) 0 (m.drop (136 * (m.length / 136)))

/-- The permutation count of each command word, by the status of the response its step gives: one that ends with another status
than OK counts none; with OK, NEW, COPY and DROP count none, DIGEST counts one, and ABSORB one at cursor 135 and none below it,
which is what its lanes show (70_reset_and_hazards R97). -/
def Obligations.PermutationCountMatchesTheCommand : Prop :=
  (∀ (s : State) (w : Word) (rest : List HostAction),
    s.inbox = .command w :: rest →
      ∃ t r, step s = .next t ∧ t.responses = s.responses ++ [r] ∧ r.status = checkWord s w ∧
        permutationsNext s = permutationsRun w s ∧
        (r.status ≠ .ok → permutationsRun w s = 0) ∧
        (w = encode .new → permutationsRun w s = 0) ∧
        (∀ h : Byte, w = encode (.copy h) ∨ w = encode (.drop h) → permutationsRun w s = 0) ∧
        (∀ h : Byte, r.status = .ok → w = encode (.digest h) → permutationsRun w s = 1) ∧
        (∀ (h b : Byte) (c : Context), r.status = .ok → w = encode (.absorb h b) → s.ctx[h.toNat]? = some c →
          permutationsRun w s = if c.cur.val = 135 then 1 else 0)) ∧
  ∀ (s : State) (h b : Byte) (c : Context),
    s.fatal = false → s.ctx[h.toNat]? = some c → c.live = true →
      (permutationsRun (encode (.absorb h b)) s = if c.cur.val = 135 then 1 else 0) ∧
      (absorbByte c.lanes c.cur b).1 =
        if permutationsRun (encode (.absorb h b)) s = 1 then keccakF (xorStateByte c.lanes (rateByte c.cur) b)
        else xorStateByte c.lanes (rateByte c.cur) b

/-- A clone answers the digest of its source, and absorbing into either leaves the other as it was (41_sponge R73, 20_memory
R39). -/
def Obligations.CloneIsEqualAndIndependent : Prop :=
  ∀ (s : State) (h b : Byte) (c : Context) (j : Nat),
    s.fatal = false → s.ctx.length ≤ 256 → s.ctx[h.toNat]? = some c → c.live = true → freeContext s = some j →
      ∃ t u v, exec (.copy h) s = .next t ∧ t.ctx[j]? = some c ∧ t.ctx[h.toNat]? = some c ∧
        exec (.absorb h b) t = .next u ∧ u.ctx[j]? = some c ∧
        exec (.absorb (BitVec.ofNat 8 j) b) t = .next v ∧ v.ctx[h.toNat]? = some c ∧
        u.ctx[h.toNat]? = v.ctx[j]?

/-- ABSORB commands on two different live handles leave the same block in either order (20_memory R39). -/
def Obligations.AbsorbsOnDifferentHandlesCommute : Prop :=
  ∀ (s : State) (h h' b b' : Byte) (c c' : Context),
    h ≠ h' → s.fatal = false → s.ctx[h.toNat]? = some c → c.live = true →
    s.ctx[h'.toNat]? = some c' → c'.live = true →
      ∃ t u t' u', exec (.absorb h b) s = .next t ∧ exec (.absorb h' b') t = .next u ∧
        exec (.absorb h' b') s = .next t' ∧ exec (.absorb h b) t' = .next u' ∧ u = u'

/-- A dropped handle is dead until an allocation takes its number again (41_sponge R74): after DROP of a live handle it names no
live context; over a run of any length in which no step is an allocation that takes it, it goes on naming none, and every command
that names it answers BAD_HANDLE, or HALTED on a block whose `FATAL` is 1 (60_exceptions R84), and changes nothing; and an
allocation that takes it makes it live. -/
def Obligations.DroppedHandleIsDeadUntilReallocated : Prop :=
  (∀ (s : State) (h : Byte) (c : Context),
    s.fatal = false → s.ctx[h.toNat]? = some c → c.live = true →
      ∃ t, exec (.drop h) s = .next t ∧ liveAt t h = false ∧ t.fatal = false ∧
        ∃ j, freeContext t = some j ∧ j ≤ h.toNat) ∧
  (∀ (n : Nat) (s : State) (h : Byte),
    liveAt s h = false →
    (∀ (k : Nat) (u : State), k < n → runSteps k s = .next u → allocatesNext h u = false) →
      ∃ t, runSteps n s = .next t ∧ liveAt t h = false ∧
        ∀ i : Instr, i.handle? = some h →
          exec i t = .next { t with
            responses := t.responses ++
              [{ status := if t.fatal then .halted else .badHandle, handle := 0, payload := Vector.replicate 32 0 }] }) ∧
  ∀ (s : State) (h : Byte), allocatesNext h s = true → ∃ t, step s = .next t ∧ liveAt t h = true

/-- Booting: on a serving block with no live context, which the block is right after reset, each command that names a handle
answers BAD_HANDLE and changes nothing, and NEW answers handle 0 and makes context 0 live (70_reset_and_hazards R95,
41_sponge R70). -/
def Obligations.BootNeedsNewAndGetsHandleZero : Prop :=
  (∀ s : State, s.fatal = false → (∀ c ∈ s.ctx, c.live = false) →
    (∀ (i : Instr) (h : Byte), i.handle? = some h →
      exec i s = .next { s with
        responses := s.responses ++
          [{ status := .badHandle, handle := 0, payload := Vector.replicate 32 0 }] }) ∧
    (s.ctx ≠ [] →
      exec .new s = .next { s with
        ctx := s.ctx.set 0 { live := true, lanes := Vector.replicate 25 0, cur := 0 }
        responses := s.responses ++ [{ status := .ok, handle := 0, payload := Vector.replicate 32 0 }] })) ∧
  (∀ n : Nat, 1 ≤ n →
    (State.resetWith n).fatal = false ∧ (∀ c ∈ (State.resetWith n).ctx, c.live = false) ∧ (State.resetWith n).ctx ≠ []) ∧
  State.reset = State.resetWith Config.numCtx ∧ 1 ≤ Config.numCtx

/-- Contexts are isolated over whole runs: two blocks that differ only in what one live context holds answer alike, step for
step, to every sequence of host actions, resets included, that does not name that context (10_state R20, R24). -/
def Obligations.UnnamedContextIsNotObservable : Prop :=
  ∀ (n : Nat) (s s' : State) (k : Byte) (c c' : Context),
    s.ctx[k.toNat]? = some c → c.live = true → c'.live = true →
    s' = { s with ctx := s.ctx.set k.toNat c' } →
    (∀ a ∈ s.inbox, namesHandle k a = false) →
      ∃ t t', runSteps n s = .next t ∧ runSteps n s' = .next t' ∧
        t.responses = t'.responses ∧ t.fatal = t'.fatal ∧ t.inbox = t'.inbox

/-- HASH on a serving block with a free context answers SHA3-256 of the message, for every byte sequence, and leaves every
context as it was. That SHA3-256 is the block-wise function of Safety.lean is the model's own (log entry 14); the rules state
the byte-wise commands (41_sponge R77, 30_encoding R50). -/
def Obligations.HashAnswersSha3AndReleasesItsContext : Prop :=
  ∀ (s : State) (j : Nat) (m : List Byte),
    s.Inv → s.fatal = false → s.inbox = [] → freeContext s = some j →
      ∃ t, hash m s = .next t ∧
        runSteps (m.length + 2) t = .next { s with
          responses := s.responses ++
            { status := .ok, handle := BitVec.ofNat 8 j, payload := Vector.replicate 32 0 } ::
              (List.replicate m.length { status := .ok, handle := 0, payload := Vector.replicate 32 0 } ++
                [{ status := .ok, handle := 0, payload := sha3 m },
                 { status := .ok, handle := 0, payload := Vector.replicate 32 0 }]) }

/-! ### The host's side -/

/-- The byte check is made of the whole data before any command: with an element that is no byte there is no command at all,
and otherwise one ABSORB an element, in order (41_sponge R80). -/
def Obligations.NonByteDataIssuesNoCommand : Prop :=
  ∀ (h : Byte) (data : List Nat),
    ((∃ v ∈ data, 256 ≤ v) → absorbChecked h data = none) ∧
    ((∀ v ∈ data, v < 256) →
      ∃ is, absorbChecked h data = some is ∧ is.length = data.length ∧
        ∀ (k v : Nat), data[k]? = some v → ∃ b : Byte, is[k]? = some (.absorb h b) ∧ b.toNat = v)

/-- The hexadecimal form of a digest: 64 characters; byte j gives characters 2j and 2j + 1, high digit first, from the sixteen
lowercase digits (41_sponge R81). -/
def Obligations.HexFormHasTwoDigitsPerByte : Prop :=
  ∀ d : Digest, (hexDigest d).length = 64 ∧
    ∀ (j : Nat) (hj : j < 32),
      (hexDigest d)[2 * j]? = some ("0123456789abcdef".toList.getD (d[j].toNat / 16) '?') ∧
      (hexDigest d)[2 * j + 1]? = some ("0123456789abcdef".toList.getD (d[j].toNat % 16) '?')

/-- Lines of each form of the assembler, with what they say: the commands in either case and with each form of a byte, a raw
word, a comment, and the three pseudo-operations, each with byte operands and with a text (30_encoding R49, R50). The forms the
rules leave open are the model's choice (log entry 12). -/
def Obligations.AssemblerReadsEachForm : Prop :=
  Asm.line "NEW".toList = some (.command .new) ∧
  Asm.line "absorb 255, 0x61 ; a comment".toList = some (.command (.absorb 255 0x61)) ∧
  Asm.line "Absorb 1, 'd'".toList = some (.command (.absorb 1 0x64)) ∧
  Asm.line "ABSORB 0, 97".toList = some (.command (.absorb 0 0x61)) ∧
  Asm.line "DIGEST 1".toList = some (.command (.digest 1)) ∧
  Asm.line "COPY 0".toList = some (.command (.copy 0)) ∧
  Asm.line "DROP 1".toList = some (.command (.drop 1)) ∧
  Asm.line "DROP 256".toList = none ∧
  Asm.line ".word 0xF0000000".toList = some (.word 0xF0000000) ∧
  Asm.line "; a comment alone".toList = some .empty ∧
  Asm.line "ABSORB.BYTES 0, 1, 2".toList = some (.absorbBytes 0 [1, 2]) ∧
  Asm.line "ABSORB.BYTES 0".toList = some (.absorbBytes 0 []) ∧
  Asm.line "ABSORB.BYTES 7, \"ab; c\"".toList = some (.absorbBytes 7 [0x61, 0x62, 0x3B, 0x20, 0x63]) ∧
  Asm.line "NEW.WITH 'a', 0x62, 99".toList = some (.newWith [0x61, 0x62, 0x63]) ∧
  Asm.line "NEW.WITH \"abc\"".toList = some (.newWith [0x61, 0x62, 0x63]) ∧
  Asm.line "HASH 'a', 0x62, 99".toList = some (.hash [0x61, 0x62, 0x63]) ∧
  Asm.line "HASH \"abc\"".toList = some (.hash [0x61, 0x62, 0x63]) ∧
  Asm.actions (.absorbBytes 0 [1, 2]) = some [.command 0x20000001, .command 0x20000002]

/-- NEW.WITH on a serving block with a free context, for every byte sequence: after its NEW and one ABSORB a byte, the least free
context is live and holds the bytes absorbed in order into a fresh context, every response is OK, the first with its number, and
nothing else changes (30_encoding R50). -/
def Obligations.NewWithAbsorbsIntoItsNewContext : Prop :=
  ∀ (s : State) (j : Nat) (m : List Byte),
    s.ctx.length ≤ 256 → s.fatal = false → s.inbox = [] → freeContext s = some j →
      ∃ t, newWith m s = .next t ∧
        runSteps m.length t = .next { s with
          ctx := s.ctx.set j
            { live := true, lanes := (absorbSeq (zeroLanes, 0) m).1, cur := (absorbSeq (zeroLanes, 0) m).2 }
          responses := s.responses ++
            { status := .ok, handle := BitVec.ofNat 8 j, payload := Vector.replicate 32 0 } ::
              List.replicate m.length { status := .ok, handle := 0, payload := Vector.replicate 32 0 } }

/-- HASH of n bytes on a serving block with a free context runs n / 136 + 1 permutations: none in its NEW, and the rest in the
steps that follow it (70_reset_and_hazards R97, 41_sponge R79; the count is that of log entry 15). -/
def Obligations.HashCountsItsBlocksAndOneMore : Prop :=
  ∀ (s : State) (j : Nat) (m : List Byte),
    s.ctx.length ≤ 256 → s.fatal = false → s.inbox = [] → freeContext s = some j →
      ∃ t, hash m s = .next t ∧ permutationsNext (giveAction (.command (encode .new)) s) = 0 ∧
        permutationsDuring (m.length + 2) t = m.length / 136 + 1
end

