-- ==== Sys2Proof/Laws/State.lean ====
section
/-! SUPPORT. One lemma per field per update of the state, so that no proof unfolds a record update. -/

namespace Sys2Proof.Machine

variable (s : State) (j n : Nat) (c : Context) (r : Response) (st : Status) (h : Byte) (p : Digest) (a : HostAction)
  (as : List HostAction) (is : List Instr)

@[simp] theorem writeContext_ctx : (writeContext j c s).ctx = s.ctx.set j c := rfl
@[simp] theorem writeContext_fatal : (writeContext j c s).fatal = s.fatal := rfl
@[simp] theorem writeContext_inbox : (writeContext j c s).inbox = s.inbox := rfl
@[simp] theorem writeContext_responses : (writeContext j c s).responses = s.responses := rfl

@[simp] theorem deliver_ctx : (deliver r s).ctx = s.ctx := rfl
@[simp] theorem deliver_fatal : (deliver r s).fatal = s.fatal := rfl
@[simp] theorem deliver_inbox : (deliver r s).inbox = s.inbox := rfl
@[simp] theorem deliver_responses : (deliver r s).responses = s.responses ++ [r] := rfl

@[simp] theorem respondOk_ctx : (respondOk h p s).ctx = s.ctx := rfl
@[simp] theorem respondOk_fatal : (respondOk h p s).fatal = s.fatal := rfl
@[simp] theorem respondOk_inbox : (respondOk h p s).inbox = s.inbox := rfl
@[simp] theorem respondOk_responses :
    (respondOk h p s).responses = s.responses ++ [{ status := .ok, handle := h, payload := p }] := rfl

@[simp] theorem raise_ctx : (raise st s).ctx = s.ctx := rfl
@[simp] theorem raise_fatal : (raise st s).fatal = s.fatal := rfl
@[simp] theorem raise_inbox : (raise st s).inbox = s.inbox := rfl
@[simp] theorem raise_responses :
    (raise st s).responses = s.responses ++ [{ status := st, handle := 0, payload := zeroPayload }] := rfl

@[simp] theorem exhaust_ctx : (exhaust s).ctx = s.ctx := rfl
@[simp] theorem exhaust_fatal : (exhaust s).fatal = true := rfl
@[simp] theorem exhaust_inbox : (exhaust s).inbox = s.inbox := rfl
@[simp] theorem exhaust_responses :
    (exhaust s).responses = s.responses ++ [{ status := .exhausted, handle := 0, payload := zeroPayload }] := rfl

@[simp] theorem resetBlock_ctx : (resetBlock s).ctx = List.replicate s.ctx.length Context.free := rfl
@[simp] theorem resetBlock_fatal : (resetBlock s).fatal = false := rfl
@[simp] theorem resetBlock_inbox : (resetBlock s).inbox = s.inbox := rfl
@[simp] theorem resetBlock_responses : (resetBlock s).responses = s.responses := rfl

@[simp] theorem giveAction_ctx : (giveAction a s).ctx = s.ctx := rfl
@[simp] theorem giveAction_fatal : (giveAction a s).fatal = s.fatal := rfl
@[simp] theorem giveAction_inbox : (giveAction a s).inbox = a :: s.inbox := rfl
@[simp] theorem giveAction_responses : (giveAction a s).responses = s.responses := rfl

@[simp] theorem issueAll_ctx : (issueAll is s).ctx = s.ctx := rfl
@[simp] theorem issueAll_fatal : (issueAll is s).fatal = s.fatal := rfl
@[simp] theorem issueAll_inbox : (issueAll is s).inbox = asActions is ++ s.inbox := rfl
@[simp] theorem issueAll_responses : (issueAll is s).responses = s.responses := rfl

@[simp] theorem withHost_ctx : (withHost as s).ctx = s.ctx := rfl
@[simp] theorem withHost_fatal : (withHost as s).fatal = s.fatal := rfl
@[simp] theorem withHost_inbox : (withHost as s).inbox = as := rfl
@[simp] theorem withHost_responses : (withHost as s).responses = s.responses := rfl

@[simp] theorem resetWith_ctx : (State.resetWith n).ctx = List.replicate n Context.free := rfl
@[simp] theorem resetWith_fatal : (State.resetWith n).fatal = false := rfl
@[simp] theorem resetWith_inbox : (State.resetWith n).inbox = [] := rfl
@[simp] theorem resetWith_responses : (State.resetWith n).responses = [] := rfl

@[simp] theorem free_live : Context.free.live = false := rfl
@[simp] theorem free_lanes : Context.free.lanes = zeroLanes := rfl
@[simp] theorem free_cur : Context.free.cur = 0 := rfl
@[simp] theorem fresh_live : Context.fresh.live = true := rfl
@[simp] theorem fresh_lanes : Context.fresh.lanes = zeroLanes := rfl
@[simp] theorem fresh_cur : Context.fresh.cur = 0 := rfl
@[simp] theorem absorb_live (b : Byte) : (c.absorb b).live = c.live := rfl
@[simp] theorem absorb_lanes (b : Byte) : (c.absorb b).lanes = (absorbByte c.lanes c.cur b).1 := rfl
@[simp] theorem absorb_cur (b : Byte) : (c.absorb b).cur = (absorbByte c.lanes c.cur b).2 := rfl

end Sys2Proof.Machine
end

