-- ==== Sys2Proof/Laws/Ops.lean ====
section
/-! SUPPORT. What each shared operation can do, said once: the proofs cite these and do not unfold the operations. -/

namespace Sys2Proof.Machine

variable {s : State} {h : Byte} {c : Context} {j : Nat}

/-- NUM_CTX is 1 to 256 (00_scope R7). -/
theorem numCtx_bounds : 1 ≤ Config.numCtx ∧ Config.numCtx ≤ 256 := by
  have := Config.moreCtx.isLt
  simp only [Config.numCtx]
  omega

theorem liveContext_eq_some : liveContext s h = some c ↔ s.ctx[h.toNat]? = some c ∧ c.live = true := by
  unfold liveContext
  split
  · split <;> simp_all <;> rintro rfl <;> simp_all
  · simp_all

theorem liveContext_eq_none : liveContext s h = none ↔ ∀ c, s.ctx[h.toNat]? = some c → c.live = false := by
  unfold liveContext
  split
  · split <;> simp_all
  · simp_all

/-- A handle is live as the check reads it exactly when it names a context for a command. -/
theorem liveAt_eq_isSome : liveAt s h = (liveContext s h).isSome := by
  unfold liveAt liveContext
  cases s.ctx[h.toNat]? with
  | none => rfl
  | some c => cases hl : c.live <;> simp [hl]

theorem liveAt_eq_false : liveAt s h = false ↔ ∀ c, s.ctx[h.toNat]? = some c → c.live = false := by
  rw [liveAt_eq_isSome, Option.isSome_eq_false_iff, Option.isNone_iff_eq_none, liveContext_eq_none]

theorem freeContext_eq_some :
    freeContext s = some j ↔
      (∃ c, s.ctx[j]? = some c ∧ c.live = false) ∧ ∀ i < j, ∀ c, s.ctx[i]? = some c → c.live = true := by
  unfold freeContext
  rw [List.findIdx?_eq_some_iff_getElem]
  constructor
  · rintro ⟨hj, hl, hlt⟩
    refine ⟨⟨s.ctx[j], by simp [hj], by simpa using hl⟩, fun i hi c hc => ?_⟩
    obtain ⟨hi', rfl⟩ := List.getElem?_eq_some_iff.1 hc
    simpa using hlt i hi
  · rintro ⟨⟨c, hc, hl⟩, hlt⟩
    obtain ⟨hj, rfl⟩ := List.getElem?_eq_some_iff.1 hc
    exact ⟨hj, by simpa using hl, fun i hi => by simpa using hlt i hi _ (List.getElem?_eq_getElem (by omega))⟩

theorem freeContext_eq_none : freeContext s = none ↔ ∀ c ∈ s.ctx, c.live = true := by
  simp [freeContext, List.findIdx?_eq_none_iff]

theorem whenServing_fatal {body : State → State} (hf : s.fatal = true) : whenServing s body = raise .halted s := by
  simp [whenServing, hf]

theorem whenServing_serving {body : State → State} (hf : s.fatal = false) : whenServing s body = body s := by
  simp [whenServing, hf]

theorem withLive_some {body : Context → State} (hc : liveContext s h = some c) : withLive h s body = body c := by
  simp [withLive, hc]

theorem withLive_none {body : Context → State} (hc : liveContext s h = none) :
    withLive h s body = raise .badHandle s := by
  simp [withLive, hc]

theorem withFree_some {body : Nat → State} (hj : freeContext s = some j) : withFree s body = body j := by
  simp [withFree, hj]

theorem withFree_none {body : Nat → State} (hj : freeContext s = none) : withFree s body = exhaust s := by
  simp [withFree, hj]

/-- The ways a command's checks and body can go, for a body that reaches the state through these forms only. -/
theorem whenServing_cases {body : State → State} {P : State → Prop}
    (hh : s.fatal = true → P (raise .halted s)) (hb : s.fatal = false → P (body s)) : P (whenServing s body) := by
  cases hf : s.fatal
  · rw [whenServing_serving hf]; exact hb hf
  · rw [whenServing_fatal hf]; exact hh hf

theorem withLive_cases {body : Context → State} {P : State → Prop}
    (hn : liveContext s h = none → P (raise .badHandle s))
    (hb : ∀ c, s.ctx[h.toNat]? = some c → c.live = true → P (body c)) : P (withLive h s body) := by
  cases hc : liveContext s h with
  | none => rw [withLive_none hc]; exact hn hc
  | some c => rw [withLive_some hc]; exact hb c (liveContext_eq_some.1 hc).1 (liveContext_eq_some.1 hc).2

theorem withFree_cases {body : Nat → State} {P : State → Prop}
    (hn : freeContext s = none → P (exhaust s)) (hb : ∀ j, freeContext s = some j → P (body j)) :
    P (withFree s body) := by
  cases hj : freeContext s with
  | none => rw [withFree_none hj]; exact hn hj
  | some j => rw [withFree_some hj]; exact hb j hj

@[simp] theorem takeAction_nil (hs : s.inbox = []) : takeAction s = none := by
  simp [takeAction, hs]

@[simp] theorem takeAction_cons {a : HostAction} {rest : List HostAction} (hs : s.inbox = a :: rest) :
    takeAction s = some (a, { s with inbox := rest }) := by
  simp [takeAction, hs]

/-- Writing a context that is live, or is the free context, keeps the free contexts all zero (10_state R23(b)). -/
theorem writeContext_keeps_free (hs : ∀ d ∈ s.ctx, d.live = false → d = Context.free)
    (hc : c.live = false → c = Context.free) :
    ∀ d ∈ (writeContext j c s).ctx, d.live = false → d = Context.free := by
  intro d hd
  rcases List.mem_or_eq_of_mem_set hd with hd | rfl
  · exact hs d hd
  · exact hc

/-- The lanes after XorStateByte, lane by lane (20_memory R25). -/
theorem xorStateByte_getElem (A : Lanes) (k : Fin 200) (b : Byte) (i : Nat) (hi : i < 25) :
    (xorStateByte A k b)[i] =
      if k.val / 8 = i then A[i] ^^^ (b.setWidth 64 <<< byteShift k.val) else A[i] := by
  unfold xorStateByte
  rw [Vector.getElem_set]
  by_cases hk : k.val / 8 = i
  · subst hk; simp only [if_true]
  · simp only [hk, if_false]

@[simp] theorem laneAt_buildLanes (f : Nat → Nat → Lane) (x y : Nat) :
    laneAt (buildLanes f) x y = f (x % 5) (y % 5) := by
  simp only [laneAt, buildLanes, Vector.getElem_ofFn]
  congr 1 <;> omega

theorem laneAt_mod_left (A : Lanes) (x y : Nat) : laneAt A (x % 5) y = laneAt A x y := by
  simp [laneAt]

theorem laneAt_mod_right (A : Lanes) (x y : Nat) : laneAt A x (y % 5) = laneAt A x y := by
  simp [laneAt]

/-- `A[x,y]` is linear lane x + 5·y (10_state R11). -/
theorem laneAt_eq_getElem (A : Lanes) (x y : Nat) (hx : x < 5) (hy : y < 5) :
    laneAt A x y = A[x + 5 * y]'(by omega) := by
  simp only [laneAt, Nat.mod_eq_of_lt hx, Nat.mod_eq_of_lt hy]

/-- Two states with equal lanes at every column and row are equal. -/
theorem lanes_ext {A B : Lanes} (h : ∀ x < 5, ∀ y < 5, laneAt A x y = laneAt B x y) : A = B := by
  apply Vector.ext
  intro i hi
  have hxy := h (i % 5) (by omega) (i / 5) (by omega)
  simp only [laneAt] at hxy
  have e : i % 5 % 5 + 5 * (i / 5 % 5) = i := by omega
  simp only [e] at hxy
  exact hxy

@[simp] theorem squeeze_getElem (A : Lanes) (i : Nat) (hi : i < 32) :
    (squeeze A)[i] = stateByte A ⟨i, by omega⟩ := by
  simp [squeeze]

/-- The rounds of a list, one after the other. -/
@[simp] theorem rounds_cons (ir : Fin 24) (irs : List (Fin 24)) (A : Lanes) :
    rounds (ir :: irs) A = rounds irs (round A ir) := by
  simp only [rounds, List.foldl_cons]

@[simp] theorem rounds_nil (A : Lanes) : rounds [] A = A := by
  simp only [rounds, List.foldl_nil]

end Sys2Proof.Machine
end

