-- ==== Sys2Proof/Laws/PerInstr.lean ====
section
/-! SUPPORT. The statements made per instruction, one lemma per constructor of Instr. -/

namespace Sys2Proof.Laws.FieldsLegal

/-- A command's fields are well formed, and its word, cut into fields, gives them back: no field of a command overlaps
another (30_encoding R40, R43). -/
def Statement (i : Instr) : Prop := i.wellFormed = true ∧ Fields.ofWord i.fields.word = i.fields

theorem ofWord_word (f : Fields) : Fields.ofWord f.word = f := by
  obtain ⟨op, rsv, h, d⟩ := f
  simp only [Fields.ofWord, Fields.word, Fields.mk.injEq]
  refine ⟨?_, ?_, ?_, ?_⟩ <;> ext i hi <;> simp only [BitVec.getElem_extractLsb', BitVec.getLsbD_append] <;> grind

theorem new : Statement .new := ⟨rfl, ofWord_word _⟩

theorem absorb (h b : Byte) : Statement (.absorb h b) :=
  ⟨by simp [Instr.wellFormed, Instr.fields, Fields.wellFormed, Fields.opKnown, Fields.rsvOk, Fields.hOk, Fields.dOk],
    ofWord_word _⟩

theorem digest (h : Byte) : Statement (.digest h) :=
  ⟨by simp [Instr.wellFormed, Instr.fields, Fields.wellFormed, Fields.opKnown, Fields.rsvOk, Fields.hOk, Fields.dOk],
    ofWord_word _⟩

theorem copy (h : Byte) : Statement (.copy h) :=
  ⟨by simp [Instr.wellFormed, Instr.fields, Fields.wellFormed, Fields.opKnown, Fields.rsvOk, Fields.hOk, Fields.dOk],
    ofWord_word _⟩

theorem drop (h : Byte) : Statement (.drop h) :=
  ⟨by simp [Instr.wellFormed, Instr.fields, Fields.wellFormed, Fields.opKnown, Fields.rsvOk, Fields.hOk, Fields.dOk],
    ofWord_word _⟩

end Sys2Proof.Laws.FieldsLegal
end

