-- ==== Sys2Proof/Laws/Run.lean ====
section
/-! SUPPORT. Runs, one step at a time, and the host's lists of commands. -/

namespace Sys2Proof.Machine

@[simp] theorem runSteps_zero (s : State) : runSteps 0 s = .next s := rfl

/-- A run of one step more is the run from the state the first step answers. -/
theorem runSteps_succ {s t : State} (n : Nat) (h : step s = .next t) : runSteps (n + 1) s = runSteps n t := by
  have hc : core.step s = Host.Outcome.next t := h
  simp only [runSteps, Host.Core.run, hc]
  rfl

@[simp] theorem asActions_nil : asActions [] = [] := rfl

@[simp] theorem asActions_cons (i : Instr) (is : List Instr) :
    asActions (i :: is) = .command (encode i) :: asActions is := rfl

@[simp] theorem asActions_append (is js : List Instr) : asActions (is ++ js) = asActions is ++ asActions js := by
  simp [asActions]

@[simp] theorem absorbBytes_nil (h : Byte) : absorbBytes h [] = [] := rfl

@[simp] theorem absorbBytes_cons (h b : Byte) (bs : List Byte) :
    absorbBytes h (b :: bs) = .absorb h b :: absorbBytes h bs := rfl

@[simp] theorem absorbSeq_nil (p : Lanes × Fin 136) : absorbSeq p [] = p := rfl

@[simp] theorem absorbSeq_cons (p : Lanes × Fin 136) (b : Byte) (bs : List Byte) :
    absorbSeq p (b :: bs) = absorbSeq (absorbByte p.1 p.2 b) bs := rfl

@[simp] theorem permutationsDuring_zero (s : State) : permutationsDuring 0 s = 0 := rfl

/-- The count of a run of one step more is that of the first step and that of the run from the state it answers. -/
theorem permutationsDuring_succ {s t : State} (n : Nat) (h : step s = .next t) :
    permutationsDuring (n + 1) s = permutationsNext s + permutationsDuring n t := by
  simp only [permutationsDuring, h]

/-- The count of a step on a command word is that of the word; what else the host is to issue does not matter. -/
theorem permutationsNext_command {s : State} {w : Word} {rest : List HostAction} (h : s.inbox = .command w :: rest) :
    permutationsNext s = permutationsRun w s := by
  simp only [permutationsNext, takeAction, h]
  rfl

@[simp] theorem permutationsNext_idle {s : State} (h : s.inbox = []) : permutationsNext s = 0 := by
  simp only [permutationsNext, takeAction, h]

end Sys2Proof.Machine
end

