-- ==== Sys2Proof/Laws/Strict.lean ====
section
/-! SUPPORT. The permutation in a form the kernel evaluates round by round: each lane is brought to a numeral before the next
round uses it. It equals keccakF; the tests on fixed states go through it. -/

namespace Sys2Proof.Machine

/-- `k n`, where the kernel brings `n` to a numeral first. -/
def forced {β : Type} (n : Nat) (k : Nat → β) : β := Nat.casesOn n (k 0) fun m => k (m + 1)

theorem forced_eq {β : Type} (n : Nat) (k : Nat → β) : forced n k = k n := by cases n <;> rfl

/-- `k` of the lanes, each brought to a numeral first. -/
def forcedLanes {β : Type} : List Lane → (List Lane → β) → β
  | [], k => k []
  | v :: vs, k => forced v.toNat fun n => forcedLanes vs fun ws => k (BitVec.ofNat 64 n :: ws)

theorem forcedLanes_eq {β : Type} (vs : List Lane) (k : List Lane → β) : forcedLanes vs k = k vs := by
  induction vs generalizing k with
  | nil => rfl
  | cons v vs ih => simp [forcedLanes, forced_eq, ih]

/-- The state with these lanes, if there are 25. -/
def ofLaneList (vs : List Lane) : Lanes := if h : vs.length = 25 then ⟨vs.toArray, by simpa using h⟩ else zeroLanes

theorem ofLaneList_toList (A : Lanes) : ofLaneList A.toList = A := by
  obtain ⟨a, ha⟩ := A
  simp [ofLaneList, Vector.toList, ha]

/-- The rounds of the list, each on a state of numerals, and then `k`. -/
def strictRounds {β : Type} (irs : List (Fin 24)) (A : Lanes) (k : Lanes → β) : β :=
  match irs with
  | [] => forcedLanes A.toList fun vs => k (ofLaneList vs)
  | ir :: irs => forcedLanes (theta A).toList fun vs => strictRounds irs (iota (chi (pi (rho (ofLaneList vs)))) ir) k

theorem strictRounds_eq {β : Type} (irs : List (Fin 24)) (A : Lanes) (k : Lanes → β) :
    strictRounds irs A k = k (rounds irs A) := by
  induction irs generalizing A with
  | nil => simp [strictRounds, forcedLanes_eq, ofLaneList_toList]
  | cons ir irs ih => simp [strictRounds, forcedLanes_eq, ofLaneList_toList, ih, round]

/-- What follows from a property that the strict evaluation shows of the permuted state. -/
theorem keccakF_of_strict {A : Lanes} {k : Lanes → Bool}
    (h : strictRounds (List.finRange Config.numRounds) A k = true) : k (keccakF A) = true := by
  rw [strictRounds_eq] at h
  exact h

end Sys2Proof.Machine
end

