-- ==== Sys2Proof/Tests/Slice0.lean ====
section
/-! SUPPORT. Tests of the model on the vectors of spec/95_test_vectors.md and on words written out from 30_encoding R42, and a
witness for the hypotheses of each statement. -/

open Sys2Proof Sys2Proof.Machine

namespace Sys2Proof.Tests

/-! ### Small states -/

/-- The lanes after absorbing "ab" (vector V-C1). -/
def abLanes : Lanes := zeroLanes.set 0 0x6261

/-- A context that has absorbed "ab". -/
def abContext : Context := { live := true, lanes := abLanes, cur := 2 }

/-- A live context with zero lanes and this cursor. -/
def zeroContext (cur : Fin 136) : Context := { live := true, lanes := zeroLanes, cur := cur }

/-- A block of these contexts, serving, whose host does this. -/
def block (cs : List Context) (as : List HostAction) : State :=
  { ctx := cs, fatal := false, inbox := as, responses := [] }

/-- The same, with `FATAL` = 1. -/
def deadBlock (cs : List Context) (as : List HostAction) : State := { block cs as with fatal := true }

/-- The outcome is a next state with this property. -/
def nextHas (o : Host.Outcome State Fault Refusal) (p : State → Bool) : Bool :=
  match o with
  | .next t => p t
  | .fault _ => false
  | .refused _ => false

/-- The response words so far. -/
def words (t : State) : List Word := t.responses.map Response.word

/-! ### Ill-formed fields are refused, a term for each check (30_encoding R43, R44) -/

theorem test_wellFormed_refuses_op0 : ({ op := 0, rsv := 0, h := 0, d := 0 } : Fields).wellFormed = false := by decide
theorem test_wellFormed_refuses_op6 : ({ op := 6, rsv := 0, h := 0, d := 0 } : Fields).wellFormed = false := by decide
theorem test_wellFormed_refuses_rsv : ({ op := 2, rsv := 0x800, h := 0, d := 0 } : Fields).wellFormed = false := by decide
theorem test_wellFormed_refuses_new_h : ({ op := 1, rsv := 0, h := 1, d := 0 } : Fields).wellFormed = false := by decide
theorem test_wellFormed_refuses_digest_d : ({ op := 3, rsv := 0, h := 0, d := 1 } : Fields).wellFormed = false := by decide
theorem test_wellFormed_takes_absorb : ({ op := 2, rsv := 0, h := 255, d := 255 } : Fields).wellFormed = true := by decide

/-! ### Decoding words written out from the opcode map (30_encoding R42) -/

theorem test_decode_new : decode 0b00010000000000000000000000000000 = .ok .new := by decide
theorem test_decode_absorb : decode 0b00100000000000001000000111000011 = .ok (.absorb 0x81 0xC3) := by decide
theorem test_decode_digest : decode 0b00110000000000001000000100000000 = .ok (.digest 0x81) := by decide
theorem test_decode_copy : decode 0b01000000000000001000000100000000 = .ok (.copy 0x81) := by decide
theorem test_decode_drop : decode 0b01010000000000001000000100000000 = .ok (.drop 0x81) := by decide
theorem test_decode_rejects : decode 0x00000000 = .error .reservedOp ∧ decode 0xF0000000 = .error .reservedOp ∧
    decode 0x28000000 = .error .rsvNotZero ∧ decode 0x10000100 = .error .hNotZero ∧
    decode 0x10000001 = .error .dNotZero ∧ decode 0x30000001 = .error .dNotZero := by decide
theorem test_encode_absorb : encode (.absorb 0x01 0x64) = 0x20000164 := by decide
theorem test_decodeTableWord : decodeTableWord 32 0x50000100 = some (.drop 1) ∧ decodeTableWord 32 0 = none := by decide

/-- The arithmetic of the constants (00_scope R5). -/
theorem test_constants : Config.rate * 8 = 1088 ∧ Config.capacity * 8 = 512 ∧
    (Config.rate + Config.capacity) * 8 = Config.numLanes * Config.laneWidth ∧ Config.numLanes * Config.laneWidth = 1600 ∧
    Config.digestSize * 8 = 256 := by decide

/-! ### The permutation (40_permutation; 95_test_vectors §3) -/

/-- The table of V-F1, each lane with its index. -/
def vectorF1 : List (Nat × Lane) :=
  [(0, 0xF1258F7940E1DDE7), (1, 0x84D5CCF933C0478A), (2, 0xD598261EA65AA9EE),
   (3, 0xBD1547306F80494D), (4, 0x8B284E056253D057),
   (5, 0xFF97A42D7F8E6FD4), (6, 0x90FEE5A0A44647C4), (7, 0x8C5BDA0CD6192E76),
   (8, 0xAD30A6F71B19059C), (9, 0x30935AB7D08FFC64),
   (10, 0xEB5AA93F2317D635), (11, 0xA9A6E6260D712103), (12, 0x81A57C16DBCF555F),
   (13, 0x43B831CD0347C826), (14, 0x01F22F1A11A5569F),
   (15, 0x05E5635A21D9AE61), (16, 0x64BEFEF28CC970F2), (17, 0x613670957BC46611),
   (18, 0xB87C5A554FD00ECB), (19, 0x8C3EE88A1CCF32C8),
   (20, 0x940C7922AE3A2614), (21, 0x1841F924A2C509E4), (22, 0x16F53526E70465C2),
   (23, 0x75F644E97F30A13B), (24, 0xEAF1FF7B5CECA249)]

/-- V-F1, all 25 lanes. -/
theorem test_keccak_of_zero : vectorF1.length = 25 ∧
    vectorF1.all (fun v => (keccakF zeroLanes)[v.1]? == some v.2) = true :=
  ⟨rfl, keccakF_of_strict (A := zeroLanes) (k := fun B => vectorF1.all fun v => B[v.1]? == some v.2) (by decide +kernel)⟩

/-- V-θ1, lanes 0, 6 and 24. -/
theorem test_theta_example : (theta (zeroLanes.set 0 1))[0] = 1 ∧ (theta (zeroLanes.set 0 1))[6] = 1 ∧
    (theta (zeroLanes.set 0 1))[24] = 2 := by decide
/-- V-ρ1, lanes 2 and 5. -/
theorem test_rho_example : (rho (Vector.replicate 25 1))[2] = 0x4000000000000000 ∧
    (rho (Vector.replicate 25 1))[5] = 0x0000001000000000 := by decide
/-- V-π1, lanes 1 and 24. -/
theorem test_pi_example : (pi (Vector.ofFn fun i => BitVec.ofNat 64 i.val))[1] = 6 ∧
    (pi (Vector.ofFn fun i => BitVec.ofNat 64 i.val))[24] = 21 := by decide
/-- V-R2, lanes 0 and 13. -/
theorem test_two_rounds : (round (round zeroLanes 0) 1)[0] = 0x8083 ∧ (round (round zeroLanes 0) 1)[13] = 0x202 := by
  decide +kernel
/-- T1 and T2. -/
theorem test_tables : (List.finRange 25).all (fun i => rhoOffsets[i] == rhoGenerated i.val) ∧
    (List.finRange 24).all (fun ir => roundConstant ir == rcGenerated ir.val) := by decide +kernel

/-! ### The byte view and the controller's functions (95_test_vectors §4, §5) -/

/-- V-B1 and V-B3. -/
theorem test_xorStateByte : (xorStateByte zeroLanes 7 0xAB)[0] = 0xAB00000000000000 ∧
    (xorStateByte zeroLanes 135 0xFF)[16] = 0xFF00000000000000 := by decide
/-- V-P2 and V-P3. -/
theorem test_pad : (pad (zeroLanes.set 0 0x636261) 3)[0] = 0x06636261 ∧
    (pad (zeroLanes.set 0 0x636261) 3)[16] = 0x8000000000000000 ∧ (pad zeroLanes 135)[16] = 0x8600000000000000 := by decide
/-- V-A3: the 136th zero byte runs the permutation. -/
theorem test_absorb_fills_block : (absorbByte zeroLanes 135 0x00).1 = keccakF zeroLanes ∧
    (absorbByte zeroLanes 135 0x00).2 = 0 := by
  have h : xorStateByte zeroLanes (rateByte 135) 0#8 = zeroLanes := by decide
  simp [absorbByte, h]
/-- V-S2: the digest of "abc". -/
theorem test_digest_abc : hexDigest (digestOf (zeroLanes.set 0 0x636261) 3) =
    "3a985da74fe225b2045c172d6bd390bd855f086e3e9d525b46bfe24511431532".toList := by
  have h := keccakF_of_strict (A := pad (zeroLanes.set 0 0x636261) 3)
    (k := fun B => decide (hexDigest (squeeze B) =
      "3a985da74fe225b2045c172d6bd390bd855f086e3e9d525b46bfe24511431532".toList)) (by decide +kernel)
  exact of_decide_eq_true h

/-! ### The commands (95_test_vectors §6) -/

/-- V-N4: the least free context is taken. -/
theorem test_new_takes_least : nextHas (exec .new (block [Context.free, zeroContext 0] []))
    (fun t => words t == [0x00000000] && t.ctx == [zeroContext 0, zeroContext 0]) = true := by decide
/-- V-N3. -/
theorem test_new_exhausts : nextHas (exec .new (block [zeroContext 0, zeroContext 0] []))
    (fun t => words t == [0x00000003] && t.fatal) = true := by decide
/-- V-AB1. -/
theorem test_absorb_first_byte : nextHas (exec (.absorb 0 0x61) (block [zeroContext 0, Context.free] []))
    (fun t => words t == [0x00000000] && t.ctx == [{ live := true, lanes := zeroLanes.set 0 0x61, cur := 1 }, Context.free])
    = true := by decide
/-- V-AB5: h = 255 with one context. -/
theorem test_absorb_bad_handle : nextHas (exec (.absorb 255 0) (block [zeroContext 0] []))
    (fun t => words t == [0x00000002] && t.ctx == [zeroContext 0]) = true := by decide
/-- V-X3: DIGEST of a dropped handle. -/
theorem test_digest_bad_handle : nextHas (exec (.digest 1) (block [zeroContext 0, Context.free] []))
    (fun t => words t == [0x00000002]) = true := by decide
/-- V-C1. -/
theorem test_copy : nextHas (exec (.copy 0) (block [abContext, Context.free] []))
    (fun t => words t == [0x00000100] && t.ctx == [abContext, abContext]) = true := by decide
/-- V-C4: BAD_HANDLE, not EXHAUSTED, and FATAL stays 0. -/
theorem test_copy_checks_handle_first : nextHas (exec (.copy 1) (block [abContext] []))
    (fun t => words t == [0x00000002] && !t.fatal) = true := by decide
/-- V-X1. -/
theorem test_drop : nextHas (exec (.drop 1) (block [zeroContext 0, abContext] []))
    (fun t => words t == [0x00000000] && t.ctx == [zeroContext 0, Context.free]) = true := by decide
/-- V-E5: DROP does not recover from FATAL. -/
theorem test_drop_halted : nextHas (exec (.drop 0) (deadBlock [abContext] []))
    (fun t => words t == [0x00000004] && t.ctx == [abContext] && t.fatal) = true := by decide

/-! ### Steps -/

/-- V-D6: ILLEGAL comes before BAD_HANDLE. -/
theorem test_step_illegal : nextHas (step (block [Context.free] [.command 0x30000001]))
    (fun t => words t == [0x00000001] && t.ctx == [Context.free] && t.inbox == []) = true := by decide
/-- V-E4: HALTED comes before ILLEGAL. -/
theorem test_step_halted : nextHas (step (deadBlock [abContext] [.command 0xF0000000]))
    (fun t => words t == [0x00000004] && t.ctx == [abContext]) = true := by decide
/-- V-E6. -/
theorem test_step_reset : nextHas (step (deadBlock [abContext, abContext] [.reset]))
    (fun t => words t == [] && t.ctx == [Context.free, Context.free] && !t.fatal) = true := by decide
/-- V-N1 as the first command after reset, for whatever NUM_CTX the block has. -/
theorem test_first_command : nextHas (step (State.reset.withFetchWord 32 0x10000000))
    (fun t => words t == [0x00000000] && t.ctx[0]? == some (zeroContext 0)) = true := by decide

/-! ### The host's side -/

theorem test_hex : (hexDigest ((zeroPayload.set 0 0xA7).set 31 0x0F)).take 4 = "a700".toList ∧
    (hexDigest ((zeroPayload.set 0 0xA7).set 31 0x0F)).drop 60 = "000f".toList := by decide
theorem test_checkBytes : checkBytes [0, 255] = some [0, 255] ∧ checkBytes [0, 256] = none := by decide
theorem test_hash_issues : nextHas (hash [0x61] (block [Context.free] []))
    (fun t => t.inbox == [.command 0x20000061, .command 0x30000000, .command 0x50000000]) = true := by decide
theorem test_asm_absorb : Asm.line "absorb 1, 'd' ; two operands".toList = some (.command (.absorb 1 0x64)) ∧
    Asm.line "ABSORB 0, 0x61".toList = some (.command (.absorb 0 0x61)) := by decide
theorem test_asm_word : (Asm.line ".word 0x10000100".toList).bind Asm.actions = some [.command 0x10000100] := by decide
theorem test_asm_bytes : Asm.line "ABSORB.BYTES 0, \"ab\"".toList = some (.absorbBytes 0 [0x61, 0x62]) ∧
    Asm.line "HASH 'a', 255".toList = some (.hash [0x61, 0xFF]) ∧ Asm.line "ABSORB 0".toList = none := by decide

/-! ### Witnesses: states and operands that meet the hypotheses of each statement -/

theorem wit_StepRunsTheDecodedCommand :
    (block [abContext] [.command 0x2000FFFF, .reset]).inbox = .command 0x2000FFFF :: [.reset] ∧
    decode 0x2000FFFF = .ok (.absorb 255 255) := by decide

theorem wit_EncodeOfDecodeIsTheWord : decode 0x5000FF00 = .ok (.drop 255) := by decide

theorem wit_DecoderAgreesWithOpcodeMap : decode 0x2000FFFF = .ok (.absorb 255 255) ∧
    rowMatches 0x2000FFFF { mnemonic := "ABSORB", value := 0x20000000, mask := 0xFFFF0000 } = true := by decide

theorem wit_IllegalWordsAreRejected :
    (block [abContext] [.command 0x60000000]).inbox = .command 0x60000000 :: [] ∧
    decode 0x60000000 = .error .reservedOp ∧ (block [abContext] [.command 0x60000000]).fatal = false ∧
    decode 0x0FFFFFFF = .error .reservedOp ∧ decode 0x20010000 = .error .rsvNotZero ∧
    decode 0x10000100 = .error .hNotZero ∧ decode 0x50000001 = .error .dNotZero := by decide

theorem wit_RotationMovesBitsUp : (63 : Nat) < 64 ∧ (rotl64 0x1 63).getLsbD 63 = true ∧ (rotl64 0x1 64).getLsbD 0 = true := by
  decide

/-- Coordinates at their bounds; a state with lanes set whose column parities are all 0. -/
theorem wit_ThetaXorsColumnParities : (4 : Nat) < 5 ∧
    ∀ x < 5, laneAt ((zeroLanes.set 0 1).set 5 1) x 0 ^^^ laneAt ((zeroLanes.set 0 1).set 5 1) x 1 ^^^
      laneAt ((zeroLanes.set 0 1).set 5 1) x 2 ^^^ laneAt ((zeroLanes.set 0 1).set 5 1) x 3 ^^^
      laneAt ((zeroLanes.set 0 1).set 5 1) x 4 = 0 := by decide

theorem wit_RhoRotatesEachLane : (4 : Nat) < 5 ∧ laneAt zeroLanes 4 4 = 0 ∧
    laneAt (zeroLanes.set 24 (BitVec.allOnes 64)) 4 4 = BitVec.allOnes 64 := by decide

theorem wit_PiPermutesLanePositions : (4 : Nat) < 5 ∧ (0 : Nat) < 5 := by decide

theorem wit_ChiMixesEachRow : (4 : Nat) < 5 ∧ (0 : Nat) < 5 := by decide

theorem wit_IotaChangesOnlyLaneZero : (4 : Nat) < 5 ∧ ¬((4 : Nat) = 0 ∧ (4 : Nat) = 0) ∧ ¬((0 : Nat) = 0 ∧ (1 : Nat) = 0) := by
  decide

/-- A chain of states that goes on by one round for each ir. -/
def chain (A : Lanes) : Nat → Lanes
  | 0 => A
  | n + 1 => if h : n < 24 then round (chain A n) ⟨n, h⟩ else chain A n

theorem wit_KeccakRunsRoundsZeroToTwentyThree :
    ∀ ir : Fin 24, chain zeroLanes (ir.val + 1) = round (chain zeroLanes ir.val) ir := by
  intro ir
  simp only [chain, ir.isLt, dif_pos]

theorem wit_ByteViewIsLittleEndianInLanes : (7 : Nat) < 8 ∧ (63 : Nat) < 64 ∧
    ((24 : Nat) = (199 : Fin 200).val / 8 ∧ 8 * ((199 : Fin 200).val % 8) ≤ 63 ∧ 63 < 8 * ((199 : Fin 200).val % 8) + 8) := by
  decide

theorem wit_AbsorbByteAdvancesOrPermutes : (135 : Fin 136).val = 135 ∧ (134 : Fin 136).val < 135 ∧ (0 : Fin 136).val < 135 := by
  decide

theorem wit_DigestBytesComeFromLanesZeroToThree : (31 : Nat) < 32 ∧ (7 : Nat) < 8 := by decide

/-- The least free context is the second of three. -/
theorem wit_NewAllocatesLeastFreeContext :
    (block [abContext, Context.free, Context.free] []).fatal = false ∧
    (block [abContext, Context.free, Context.free] []).ctx[1]? = some Context.free ∧ Context.free.live = false ∧
    ∀ (k : Nat) (d : Context), k < 1 →
      (block [abContext, Context.free, Context.free] []).ctx[k]? = some d → d.live = true := by
  refine ⟨by decide, by decide, by decide, ?_⟩
  intro k d hk hd
  obtain rfl : k = 0 := by omega
  cases hd
  rfl

/-- A live handle at the last number of a block of 256 contexts, and one of a block of one. -/
theorem wit_AbsorbWritesItsContext :
    (block (List.replicate 256 abContext) []).fatal = false ∧
    (block (List.replicate 256 abContext) []).ctx[(0xFF : Byte).toNat]? = some abContext ∧ abContext.live = true ∧
    (block [zeroContext 135] []).ctx[(0 : Byte).toNat]? = some (zeroContext 135) := by
  refine ⟨rfl, ?_, rfl, rfl⟩
  have h : (List.replicate 256 abContext)[255]? = some abContext := by
    rw [List.getElem?_replicate]
    exact if_pos (by omega)
  exact h

theorem wit_DigestAnswersAndWritesNothing :
    (block [Context.free, abContext] []).fatal = false ∧
    (block [Context.free, abContext] []).ctx[(1 : Byte).toNat]? = some abContext ∧ abContext.live = true := by decide

theorem wit_CopyDuplicatesIntoLeastFreeContext :
    (block [Context.free, abContext] []).fatal = false ∧
    (block [Context.free, abContext] []).ctx[(1 : Byte).toNat]? = some abContext ∧ abContext.live = true ∧
    (block [Context.free, abContext] []).ctx[0]? = some Context.free ∧ Context.free.live = false ∧
    ∀ (k : Nat) (e : Context), k < 0 → (block [Context.free, abContext] []).ctx[k]? = some e → e.live = true := by
  refine ⟨by decide, by decide, by decide, by decide, by decide, ?_⟩
  intro k e hk
  omega

theorem wit_DropFreesAndZeroesItsContext :
    (block [Context.free, abContext] []).fatal = false ∧
    (block [Context.free, abContext] []).ctx[(1 : Byte).toNat]? = some abContext ∧ abContext.live = true := by decide

/-- A handle that is NUM_CTX, the greatest handle, and the handle of a free context. -/
theorem wit_DeadHandleAnswersBadHandle :
    (block [abContext, Context.free] []).fatal = false ∧ (Instr.copy 2).handle? = some 2 ∧
    (block [abContext, Context.free] []).ctx.length ≤ (2 : Byte).toNat ∧
    (Instr.absorb 255 0).handle? = some 255 ∧ (block [abContext, Context.free] []).ctx.length ≤ (255 : Byte).toNat ∧
    (Instr.digest 1).handle? = some 1 ∧
    (block [abContext, Context.free] []).ctx[(1 : Byte).toNat]? = some Context.free ∧ Context.free.live = false := by decide

theorem wit_ExhaustionSetsFatal :
    (block [abContext] []).fatal = false ∧ (∀ c ∈ (block [abContext] []).ctx, c.live = true) ∧
    (Instr.new = .new) ∧ (Instr.copy 0 = .copy 0 ∧ (0 : Byte).toNat < (block [abContext] []).ctx.length) := by decide

theorem wit_FatalBlockAnswersHalted :
    (deadBlock [abContext] [.command 0x30000000]).fatal = true ∧
    (deadBlock [abContext] [.command 0x30000000]).inbox = .command 0x30000000 :: [] := by decide

theorem wit_ResponseStatusFollowsCheckOrder :
    (block [abContext] [.command 0x40000000]).inbox = .command 0x40000000 :: [] ∧
    checkWord (block [abContext] []) 0x40000000 = .exhausted ∧ checkWord (block [abContext] []) 0x40000100 = .badHandle ∧
    checkWord (block [abContext] []) 0x40000001 = .illegal ∧ checkWord (deadBlock [abContext] []) 0x40000001 = .halted ∧
    checkWord (block [abContext] []) 0x30000000 = .ok := by decide

/-- A command for each of the three statuses. -/
theorem wit_RejectedCommandsChangeNothing :
    (block [abContext] [.command 0x40000001]).inbox = .command 0x40000001 :: [] ∧
    (block [abContext] [.command 0x50000100]).inbox = .command 0x50000100 :: [] ∧
    (deadBlock [abContext] [.command 0x10000000]).inbox = .command 0x10000000 :: [] ∧
    checkWord (block [abContext] []) 0x40000001 = .illegal ∧ checkWord (block [abContext] []) 0x50000100 = .badHandle ∧
    checkWord (deadBlock [abContext] []) 0x10000000 = .halted := by decide

/-- A command that allocates, one that answers a digest, and one of neither. -/
theorem wit_ResponseFieldsAreFixed :
    (block [abContext, Context.free] [.command 0x10000000]).inbox = .command 0x10000000 :: [] ∧
    checkWord (block [abContext, Context.free] []) 0x10000000 = .ok ∧ fieldOp 0x10000000 = 1 ∧
    checkWord (block [abContext, Context.free] []) 0x30000000 = .ok ∧ fieldOp 0x30000000 = 3 ∧
    checkWord (block [abContext, Context.free] []) 0x50000000 = .ok ∧ fieldOp 0x50000000 = 5 := by decide

/-- A command that writes a context, and one that sets FATAL. -/
theorem wit_CommandsKeepOtherContexts :
    (∃ t, exec (.drop 0) (block [abContext] []) = .next t ∧ t.ctx[0]? ≠ (block [abContext] []).ctx[0]?) ∧
    (∃ t, exec .new (block [Context.free] []) = .next t ∧ t.ctx[0]? ≠ (block [Context.free] []).ctx[0]?) ∧
    ∃ t, exec .new (block [abContext] []) = .next t ∧ t.fatal ≠ (block [abContext] []).fatal :=
  ⟨⟨_, rfl, by decide⟩, ⟨_, rfl, by decide⟩, ⟨_, rfl, by decide⟩⟩

theorem wit_AbsorbBelowFullBlockChangesOneByte :
    (block [zeroContext 134] []).fatal = false ∧
    (block [zeroContext 134] []).ctx[(0 : Byte).toNat]? = some (zeroContext 134) ∧ (zeroContext 134).live = true ∧
    (zeroContext 134).cur.val < 135 := by decide

theorem wit_NamedCommandsReadOnlyTheirContext :
    (block [abContext, zeroContext 3] []).fatal = false ∧ (block [abContext] []).fatal = false ∧
    (block [abContext, zeroContext 3] []).ctx[(0 : Byte).toNat]? = (block [abContext] []).ctx[(0 : Byte).toNat]? ∧
    (block [abContext, zeroContext 3] []).responses = (block [abContext] []).responses ∧
    (∃ t, exec (.digest 0) (block [abContext, zeroContext 3] []) = .next t) ∧
    ∃ t, exec (.digest 0) (block [abContext] []) = .next t :=
  ⟨rfl, rfl, rfl, rfl, ⟨_, rfl⟩, ⟨_, rfl⟩⟩

theorem wit_ResetActionClearsTheBlock :
    (deadBlock [abContext] [.reset, .command 0]).inbox = .reset :: [.command 0] := by decide

theorem wit_ResetMeetsTheInvariant : 1 ≤ 1 ∧ 1 ≤ 256 ∧ 256 ≤ 256 := by decide

theorem wit_EveryStepKeepsTheInvariant : (block [abContext, Context.free] [.command 0x50000000]).Inv ∧
    ∃ t, step (block [abContext, Context.free] [.command 0x50000000]) = .next t :=
  ⟨by decide, ⟨_, rfl⟩⟩

theorem wit_IdleBlockKeepsItsState : (block [abContext] []).inbox = [] := by decide

theorem wit_FatalLastsUntilReset : (deadBlock [abContext] [.command 0x10000000]).faulted ∧
    HostAction.reset ∉ (deadBlock [abContext] [.command 0x10000000]).inbox ∧
    (deadBlock [abContext] [.reset]).faulted ∧ (deadBlock [abContext] [.reset]).inbox = .reset :: [] := by decide

theorem wit_DigestIsIdempotent :
    (block [abContext] []).fatal = false ∧ (block [abContext] []).ctx[(0 : Byte).toNat]? = some abContext ∧
    abContext.live = true := by decide

theorem wit_AbsorbBytesRunsByteByByte :
    (block [abContext] []).fatal = false ∧ (block [abContext] []).inbox = [] ∧
    (block [abContext] []).ctx[(0 : Byte).toNat]? = some abContext ∧ abContext.live = true := by decide

theorem wit_AbsorbingCountsPermutations : (List.replicate 272 (0 : Byte)).length = 136 * 2 ∧
    (block [zeroContext 135] []).fatal = false ∧ (block [zeroContext 135] []).inbox = [] ∧
    (block [zeroContext 135] []).ctx[(0 : Byte).toNat]? = some (zeroContext 135) ∧ (zeroContext 135).live = true :=
  ⟨List.length_replicate, rfl, rfl, rfl, rfl⟩

/-- A rejected command, and an OK one of each kind. -/
theorem wit_PermutationCountMatchesTheCommand :
    (deadBlock [abContext] [.command 0x30000000]).inbox = .command 0x30000000 :: [] ∧
    checkWord (deadBlock [abContext] [.command 0x30000000]) 0x30000000 ≠ .ok ∧
    checkWord (block [abContext, Context.free] []) (encode .new) = .ok ∧
    checkWord (block [abContext, Context.free] []) (encode (.copy 0)) = .ok ∧
    checkWord (block [abContext] []) (encode (.drop 0)) = .ok ∧
    checkWord (block [abContext] []) (encode (.digest 0)) = .ok ∧
    checkWord (block [zeroContext 135] []) (encode (.absorb 0 1)) = .ok ∧ (block [zeroContext 135] []).fatal = false ∧
    (block [zeroContext 135] []).ctx[(0 : Byte).toNat]? = some (zeroContext 135) ∧ (zeroContext 135).live = true := by decide

theorem wit_CloneIsEqualAndIndependent :
    (block [abContext, Context.free] []).fatal = false ∧ (block [abContext, Context.free] []).ctx.length ≤ 256 ∧
    (block [abContext, Context.free] []).ctx[(0 : Byte).toNat]? = some abContext ∧ abContext.live = true ∧
    freeContext (block [abContext, Context.free] []) = some 1 := by decide

theorem wit_AbsorbsOnDifferentHandlesCommute :
    (0 : Byte) ≠ 1 ∧ (block [abContext, zeroContext 135] []).fatal = false ∧
    (block [abContext, zeroContext 135] []).ctx[(0 : Byte).toNat]? = some abContext ∧ abContext.live = true ∧
    (block [abContext, zeroContext 135] []).ctx[(1 : Byte).toNat]? = some (zeroContext 135) ∧
    (zeroContext 135).live = true := by decide

/-- A live handle to drop; a dead one and a run of one step that does not allocate it; and a step that allocates it. -/
theorem wit_DroppedHandleIsDeadUntilReallocated :
    ((block [abContext] []).fatal = false ∧ (block [abContext] []).ctx[(0 : Byte).toNat]? = some abContext ∧
      abContext.live = true) ∧
    (liveAt (block [Context.free, abContext] [.command 0x30000100]) 0 = false ∧
      (∀ (k : Nat) (u : State), k < 1 → runSteps k (block [Context.free, abContext] [.command 0x30000100]) = .next u →
        allocatesNext 0 u = false) ∧
      (Instr.drop 0).handle? = some 0) ∧
    allocatesNext 0 (block [Context.free, abContext] [.command 0x40000100]) = true := by
  refine ⟨by decide, ⟨by decide, ?_, rfl⟩, by decide⟩
  intro k u hk hu
  obtain rfl : k = 0 := by omega
  cases hu
  decide

theorem wit_BootNeedsNewAndGetsHandleZero :
    (block [Context.free] []).fatal = false ∧ (∀ c ∈ (block [Context.free] []).ctx, c.live = false) ∧
    (block [Context.free] []).ctx ≠ [] ∧ (Instr.digest 0).handle? = some 0 ∧ (Instr.drop 255).handle? = some 255 ∧
    1 ≤ Config.numCtx := by decide

/-- Two live contexts, of which the host names only the first. -/
theorem wit_UnnamedContextIsNotObservable :
    (block [zeroContext 0, abContext] [.command 0x30000000, .command 0x10000000, .reset]).ctx[(1 : Byte).toNat]? =
      some abContext ∧ abContext.live = true ∧ (zeroContext 7).live = true ∧
    block [zeroContext 0, zeroContext 7] [.command 0x30000000, .command 0x10000000, .reset] =
      { block [zeroContext 0, abContext] [.command 0x30000000, .command 0x10000000, .reset] with
        ctx := (block [zeroContext 0, abContext] []).ctx.set (1 : Byte).toNat (zeroContext 7) } ∧
    ∀ a ∈ (block [zeroContext 0, abContext] [.command 0x30000000, .command 0x10000000, .reset]).inbox,
      namesHandle 1 a = false := by decide

theorem wit_HashAnswersSha3AndReleasesItsContext :
    (block [abContext, Context.free] []).Inv ∧ (block [abContext, Context.free] []).fatal = false ∧
    (block [abContext, Context.free] []).inbox = [] ∧ freeContext (block [abContext, Context.free] []) = some 1 := by decide

theorem wit_NonByteDataIssuesNoCommand : (∃ v ∈ [0, 256], 256 ≤ v) ∧ ∀ v ∈ [0, 255], v < 256 := by decide

theorem wit_HexFormHasTwoDigitsPerByte : (31 : Nat) < 32 ∧ (0 : Nat) < 32 := by decide

theorem wit_NewWithAbsorbsIntoItsNewContext :
    (block [abContext, Context.free] []).ctx.length ≤ 256 ∧ (block [abContext, Context.free] []).fatal = false ∧
    (block [abContext, Context.free] []).inbox = [] ∧ freeContext (block [abContext, Context.free] []) = some 1 := by decide

theorem wit_HashCountsItsBlocksAndOneMore :
    (block [Context.free] []).ctx.length ≤ 256 ∧ (block [Context.free] []).fatal = false ∧
    (block [Context.free] []).inbox = [] ∧ freeContext (block [Context.free] []) = some 0 := by decide

end Sys2Proof.Tests
end

section
/-! ROTL64 bit by bit (00_scope R8). -/

namespace Sys2Proof.Machine

/-- A bit below the rotation count wraps around from the high end. -/
theorem getLsbD_rotl64_of_lt (v : Lane) {n j : Nat} (h : j < n % 64) :
    (rotl64 v n).getLsbD j = v.getLsbD (64 - n % 64 + j) := by
  rw [rotl64, BitVec.getLsbD_rotateLeft]
  simp [h]

/-- A bit at or above the rotation count comes from below it. -/
theorem getLsbD_rotl64_of_le (v : Lane) {n j : Nat} (h : n % 64 ≤ j) (hj : j < 64) :
    (rotl64 v n).getLsbD j = v.getLsbD (j - n % 64) := by
  rw [rotl64, BitVec.getLsbD_rotateLeft]
  simp only [Nat.not_lt.mpr h, hj, decide_false, decide_true, cond_false, Bool.true_and]

/-- Settles O8, by whether the bit wraps around the high end of the lane. -/
theorem rotationMovesBitsUp : Obligations.RotationMovesBitsUp := by
  intro v n j hj
  by_cases h : j < n % 64
  · have index : (j + 64 - n % 64) % 64 = 64 - n % 64 + j := by omega
    rw [getLsbD_rotl64_of_lt v h, index]
  · have index : (j + 64 - n % 64) % 64 = j - n % 64 := by omega
    rw [getLsbD_rotl64_of_le v (Nat.not_lt.mp h) hj, index]

end Sys2Proof.Machine
end

section
/-! What a step and a command can do, said once: the equations of a step by the host's next action, and the inversion of a
command's meaning (41_sponge R70 to R74, 60_exceptions R84). -/

namespace Sys2Proof.Machine

variable {s t : State} {i : Instr}

theorem step_of_inbox_nil (hs : s.inbox = []) : step s = .next s := by
  simp only [step, takeAction_nil hs, idle]

theorem step_of_inbox_cons {a : HostAction} {rest : List HostAction} (hs : s.inbox = a :: rest) :
    step s = runAction a { s with inbox := rest } := by
  simp only [step, takeAction_cons hs]

theorem runWord_of_decode_ok {w : Word} (hw : decode w = .ok i) : runWord w s = exec i s := by
  simp only [runWord, hw]

theorem runWord_of_decode_error {w : Word} {why : Illegal} (hw : decode w = .error why) :
    runWord w s = .next (rejectIllegal why s) := by
  simp only [runWord, hw]

@[simp] theorem rejectIllegal_ctx (why : Illegal) : (rejectIllegal why s).ctx = s.ctx :=
  whenServing_cases (P := fun t => t.ctx = s.ctx) (fun _ => rfl) fun _ => rfl

/-- The command allocates a context (41_sponge R70, R73). -/
def Allocates (i : Instr) : Prop := i = .new ∨ ∃ h, i = .copy h

/-- The ends a command can have on a state, each with the guards that lead to it, in the order of 60_exceptions R84, and the
state it leaves. -/
inductive CommandEnd (s : State) : Instr → State → Prop where
  | halted (i : Instr) : s.fatal = true → CommandEnd s i (raise .halted s)
  | badHandle (i : Instr) (h : Byte) :
      s.fatal = false → i.handle? = some h → liveContext s h = none → CommandEnd s i (raise .badHandle s)
  | exhausted (i : Instr) :
      s.fatal = false → Allocates i → freeContext s = none → CommandEnd s i (exhaust s)
  | created (j : Nat) :
      s.fatal = false → freeContext s = some j →
        CommandEnd s .new (respondOk (handleOf j) zeroPayload (writeContext j Context.fresh s))
  | absorbed (h b : Byte) (c : Context) :
      s.fatal = false → liveContext s h = some c →
        CommandEnd s (.absorb h b) (respondOk 0 zeroPayload (writeContext h.toNat (c.absorb b) s))
  | digested (h : Byte) (c : Context) :
      s.fatal = false → liveContext s h = some c →
        CommandEnd s (.digest h) (respondOk 0 (digestOf c.lanes c.cur) s)
  | copied (h : Byte) (c : Context) (j : Nat) :
      s.fatal = false → liveContext s h = some c → freeContext s = some j →
        CommandEnd s (.copy h) (respondOk (handleOf j) zeroPayload
          (writeContext j { live := true, lanes := c.lanes, cur := c.cur } s))
  | dropped (h : Byte) (c : Context) :
      s.fatal = false → liveContext s h = some c →
        CommandEnd s (.drop h) (respondOk 0 zeroPayload (writeContext h.toNat Context.free s))

/-- A command that names a handle ends by its checks of FATAL and of the handle, or as its body does. -/
theorem commandEnd_of_live {h : Byte} {body : State → Context → State} (hi : i.handle? = some h)
    (hb : s.fatal = false → ∀ c, liveContext s h = some c → CommandEnd s i (body s c)) :
    CommandEnd s i (whenServing s fun s => withLive h s (body s)) :=
  whenServing_cases (.halted i) fun hf =>
    withLive_cases (.badHandle i h hf hi) fun c hc hl => hb hf c (liveContext_eq_some.2 ⟨hc, hl⟩)

/-- Every command answers a next state, and that state is one of its ends. -/
theorem exec_eq_next (i : Instr) (s : State) : ∃ t, exec i s = .next t ∧ CommandEnd s i t := by
  cases i with
  | new =>
    exact ⟨_, rfl, whenServing_cases (.halted .new) fun hf =>
      withFree_cases (.exhausted .new hf (.inl rfl)) fun j => .created j hf⟩
  | absorb h b => exact ⟨_, rfl, commandEnd_of_live rfl fun hf c => .absorbed h b c hf⟩
  | digest h => exact ⟨_, rfl, commandEnd_of_live rfl fun hf c => .digested h c hf⟩
  | copy h =>
    exact ⟨_, rfl, commandEnd_of_live rfl fun hf c hc =>
      withFree_cases (.exhausted (.copy h) hf (.inr ⟨h, rfl⟩)) fun j => .copied h c j hf hc⟩
  | drop h => exact ⟨_, rfl, commandEnd_of_live rfl fun hf c => .dropped h c hf⟩

theorem commandEnd_of_exec (h : exec i s = .next t) : CommandEnd s i t := by
  obtain ⟨t', ht', hend⟩ := exec_eq_next i s
  rw [ht'] at h
  cases h
  exact hend

/-- The command can write the context of this number: the one it names, or the one it allocates (10_state R20). -/
def MayWrite (i : Instr) (s : State) (j : Nat) : Prop :=
  (∃ h b, i = .absorb h b ∧ j = h.toNat) ∨ (∃ h, i = .drop h ∧ j = h.toNat) ∨
    (Allocates i ∧ freeContext s = some j)

/-- A command leaves the contexts as they are, or it writes one context it may write, and writes it live or all zero. -/
theorem CommandEnd.ctx_eq_or_set (hend : CommandEnd s i t) :
    t.ctx = s.ctx ∨ t.fatal = false ∧ ∃ j c, MayWrite i s j ∧ (c.live = false → c = Context.free) ∧
      t.ctx = s.ctx.set j c := by
  cases hend with
  | halted | badHandle | exhausted | digested => exact .inl rfl
  | created j hf hj => exact .inr ⟨hf, j, _, .inr (.inr ⟨.inl rfl, hj⟩), by simp, rfl⟩
  | absorbed h b c hf hc =>
    have hl := (liveContext_eq_some.1 hc).2
    exact .inr ⟨hf, _, _, .inl ⟨h, b, rfl, rfl⟩, by simp [hl], rfl⟩
  | copied h c j hf hc hj => exact .inr ⟨hf, j, _, .inr (.inr ⟨.inr ⟨h, rfl⟩, hj⟩), by simp, rfl⟩
  | dropped h c hf hc => exact .inr ⟨hf, _, _, .inr (.inl ⟨h, rfl, rfl⟩), fun _ => rfl, rfl⟩

theorem CommandEnd.ctx_length (hend : CommandEnd s i t) : t.ctx.length = s.ctx.length := by
  obtain hctx | ⟨-, j, c, -, -, hctx⟩ := hend.ctx_eq_or_set <;> simp [hctx]

theorem CommandEnd.inbox_eq (hend : CommandEnd s i t) : t.inbox = s.inbox := by
  cases hend <;> rfl

theorem CommandEnd.responses_eq (hend : CommandEnd s i t) : ∃ r, t.responses = s.responses ++ [r] := by
  cases hend <;> exact ⟨_, rfl⟩

/-- A command leaves FATAL as it is, or it is an allocation that finds every context live and changes none of them. -/
theorem CommandEnd.fatal_eq_or_exhausted (hend : CommandEnd s i t) :
    t.fatal = s.fatal ∨
      t.fatal = true ∧ t.ctx = s.ctx ∧ Allocates i ∧ ∀ c ∈ s.ctx, c.live = true := by
  cases hend with
  | exhausted _ _ ha hn => exact .inr ⟨rfl, rfl, ha, freeContext_eq_none.1 hn⟩
  | halted | badHandle | created | absorbed | digested | copied | dropped => exact .inl rfl

end Sys2Proof.Machine
end

section
/-! The invariant of the block: it holds after reset and every step keeps it (10_state R22, R23). -/

namespace Sys2Proof.Machine

variable {s t : State}

/-- The invariant speaks of the contexts only. -/
theorem inv_of_ctx_eq (hctx : t.ctx = s.ctx) (hs : s.Inv) : t.Inv := by
  simpa only [State.Inv, hctx] using hs

theorem resetWith_inv {n : Nat} (h1 : 1 ≤ n) (h256 : n ≤ 256) : (State.resetWith n).Inv := by
  refine ⟨by simpa using h1, by simpa using h256, fun c hc _ => List.eq_of_mem_replicate hc⟩

theorem resetBlock_inv (hs : s.Inv) : (resetBlock s).Inv := by
  obtain ⟨h1, h256, -⟩ := hs
  exact inv_of_ctx_eq (s := State.resetWith s.ctx.length) rfl (resetWith_inv h1 h256)

theorem CommandEnd.keeps_inv {i : Instr} (hend : CommandEnd s i t) (hs : s.Inv) : t.Inv := by
  obtain hctx | ⟨-, j, c, -, hc, hctx⟩ := hend.ctx_eq_or_set
  · exact inv_of_ctx_eq hctx hs
  · obtain ⟨h1, h256, hfree⟩ := hs
    refine inv_of_ctx_eq (s := writeContext j c s) hctx ⟨by simpa using h1, by simpa using h256, ?_⟩
    exact writeContext_keeps_free hfree hc

/-- A command word keeps the invariant and the number of contexts, whether it spells a command or not. -/
theorem runWord_keeps_inv {w : Word} (hs : s.Inv) (hstep : runWord w s = .next t) :
    t.Inv ∧ t.ctx.length = s.ctx.length := by
  cases hw : decode w with
  | ok i =>
    rw [runWord_of_decode_ok hw] at hstep
    have hend := commandEnd_of_exec hstep
    exact ⟨hend.keeps_inv hs, hend.ctx_length⟩
  | error why =>
    rw [runWord_of_decode_error hw] at hstep
    cases hstep
    exact ⟨inv_of_ctx_eq (rejectIllegal_ctx why) hs, by rw [rejectIllegal_ctx]⟩

/-- Settles O39, by the host's next action: none, a reset, or a command word. -/
theorem everyStepKeepsTheInvariant : Obligations.EveryStepKeepsTheInvariant := by
  intro s t hs hstep
  cases hin : s.inbox with
  | nil =>
    rw [step_of_inbox_nil hin] at hstep
    cases hstep
    exact ⟨hs, rfl⟩
  | cons a rest =>
    rw [step_of_inbox_cons hin] at hstep
    cases a with
    | command w => exact runWord_keeps_inv (s := { s with inbox := rest }) hs hstep
    | reset =>
      cases hstep
      exact ⟨resetBlock_inv (s := { s with inbox := rest }) hs, by simp⟩

/-- Settles O38: the contexts after reset are all free, and NUM_CTX is within its bounds. -/
theorem resetMeetsTheInvariant : Obligations.ResetMeetsTheInvariant :=
  ⟨resetWith_inv numCtx_bounds.1 numCtx_bounds.2, fun _ => resetWith_inv⟩

theorem zeroLanes_getElem (l : Fin 25) : zeroLanes[l] = 0 := by
  simp [zeroLanes]

/-- Settles O37: every context after reset is the free one. -/
theorem resetValuesAreZero : Obligations.ResetValuesAreZero := by
  refine ⟨fun n => ⟨by simp, fun c hc => ?_, rfl⟩, rfl, numCtx_bounds⟩
  obtain rfl : c = Context.free := List.eq_of_mem_replicate hc
  exact ⟨rfl, zeroLanes_getElem, rfl⟩

end Sys2Proof.Machine
end

section
/-! The frame of a command (10_state R13, R20; 20_memory R39). -/

namespace Sys2Proof.Machine

/-- A context that a command changes is one it may write, and the block serves after it. -/
theorem CommandEnd.mayWrite_of_ne {s t : State} {i : Instr} {j : Nat} (hend : CommandEnd s i t)
    (hne : t.ctx[j]? ≠ s.ctx[j]?) : t.fatal = false ∧ MayWrite i s j := by
  obtain hctx | ⟨hf, k, c, hk, -, hctx⟩ := hend.ctx_eq_or_set
  · exact absurd (by rw [hctx]) hne
  · obtain rfl : k = j := by
      by_contra hkj
      exact hne (by rw [hctx, List.getElem?_set_ne hkj])
    exact ⟨hf, hk⟩

/-- Settles O33, from the ends a command can have. -/
theorem commandsKeepOtherContexts : Obligations.CommandsKeepOtherContexts := by
  intro i s t hexec
  have hend := commandEnd_of_exec hexec
  exact ⟨hend.ctx_length, hend.inbox_eq, hend.responses_eq, fun _ => hend.mayWrite_of_ne,
    fun hne => hend.fatal_eq_or_exhausted.resolve_left hne⟩

end Sys2Proof.Machine
end

section
/-! Two blocks side by side: each check of a command on both, when both answer it alike. -/

namespace Sys2Proof.Machine

variable {s s' : State} {R : State → State → Prop}

theorem whenServing_rel {body body' : State → State} (hf : s.fatal = s'.fatal)
    (hh : R (raise .halted s) (raise .halted s')) (hb : R (body s) (body' s')) :
    R (whenServing s body) (whenServing s' body') := by
  cases hs : s.fatal with
  | false => rwa [whenServing_serving hs, whenServing_serving (hf ▸ hs)]
  | true => rwa [whenServing_fatal hs, whenServing_fatal (hf ▸ hs)]

theorem withLive_rel {h : Byte} {body body' : Context → State} (hc : liveContext s h = liveContext s' h)
    (hn : R (raise .badHandle s) (raise .badHandle s')) (hb : ∀ c, R (body c) (body' c)) :
    R (withLive h s body) (withLive h s' body') := by
  cases hs : liveContext s h with
  | none => rwa [withLive_none hs, withLive_none (hc ▸ hs)]
  | some c =>
    rw [withLive_some hs, withLive_some (hc ▸ hs)]
    exact hb c

theorem withFree_rel {body body' : Nat → State} (hj : freeContext s = freeContext s')
    (hn : R (exhaust s) (exhaust s')) (hb : ∀ j, R (body j) (body' j)) :
    R (withFree s body) (withFree s' body') := by
  cases hs : freeContext s with
  | none => rwa [withFree_none hs, withFree_none (hj ▸ hs)]
  | some j =>
    rw [withFree_some hs, withFree_some (hj ▸ hs)]
    exact hb j

/-- The context a handle names depends on the context of its number only. -/
theorem liveContext_congr {h : Byte} (hc : s.ctx[h.toNat]? = s'.ctx[h.toNat]?) : liveContext s h = liveContext s' h := by
  simp only [liveContext, hc]

end Sys2Proof.Machine
end

section
/-! A command that names a handle reads only that context (10_state R20). -/

namespace Sys2Proof.Machine

/-- The two blocks have the same context of number `j`, the same FATAL and have given the same responses. -/
structure SameAt (j : Nat) (s s' : State) : Prop where
  ctx : s.ctx[j]? = s'.ctx[j]?
  fatal : s.fatal = s'.fatal
  responses : s.responses = s'.responses

namespace SameAt

variable {s s' : State} {j : Nat} {h : Byte}

theorem deliver (r : Response) (hs : SameAt j s s') : SameAt j (deliver r s) (deliver r s') :=
  ⟨hs.ctx, hs.fatal, by simp [hs.responses]⟩

theorem writeContext (c : Context) (hs : SameAt j s s') : SameAt j (writeContext j c s) (writeContext j c s') :=
  ⟨by simp [List.getElem?_set_self', hs.ctx], hs.fatal, hs.responses⟩

/-- The checks of FATAL and of the handle come out alike, so the commands do when their bodies do. -/
theorem checked {body : State → Context → State} (hs : SameAt h.toNat s s')
    (hb : ∀ c, SameAt h.toNat (body s c) (body s' c)) :
    SameAt h.toNat (whenServing s fun s => withLive h s (body s)) (whenServing s' fun s => withLive h s (body s)) :=
  whenServing_rel hs.fatal (hs.deliver _) (withLive_rel (liveContext_congr hs.ctx) (hs.deliver _) hb)

end SameAt

/-- Settles O35: the checks come out alike, and so does the body of each of the three commands. -/
theorem namedCommandsReadOnlyTheirContext : Obligations.NamedCommandsReadOnlyTheirContext := by
  intro s s' t t' i h hf hf' hctx hresp hi ht ht'
  have hs : SameAt h.toNat s s' := ⟨hctx, hf.trans hf'.symm, hresp⟩
  have hsame : SameAt h.toNat t t' := by
    obtain ⟨b, rfl⟩ | rfl | rfl := hi <;> cases ht <;> cases ht'
    · exact hs.checked fun c => (hs.writeContext (c.absorb b)).deliver _
    · exact hs.checked fun c => hs.deliver _
    · exact hs.checked fun c => (hs.writeContext Context.free).deliver _
  exact ⟨hsame.responses, hsame.ctx⟩

end Sys2Proof.Machine
end

section
/-! A context that no command names cannot be observed (10_state R20, R24): the relation between two blocks that may
differ in what that context holds, kept by every operation and so by every step. -/

namespace Sys2Proof.Machine

/-- The two blocks differ at most in what context `k` holds beside LIVE, and the host is to issue to both the same actions,
none of which names `k`. -/
structure AlikeBut (k : Byte) (s s' : State) : Prop where
  live : s.ctx.map (·.live) = s'.ctx.map (·.live)
  others : ∀ j, j ≠ k.toNat → s.ctx[j]? = s'.ctx[j]?
  fatal : s.fatal = s'.fatal
  inbox : s.inbox = s'.inbox
  responses : s.responses = s'.responses
  unnamed : ∀ a ∈ s.inbox, namesHandle k a = false

namespace AlikeBut

variable {s s' : State} {k : Byte}

theorem ctx_length (hs : AlikeBut k s s') : s.ctx.length = s'.ctx.length := by
  simpa using congrArg List.length hs.live

/-- An allocation looks at LIVE only. -/
theorem freeContext_eq (hs : AlikeBut k s s') : freeContext s = freeContext s' := by
  have hlive := congrArg (List.findIdx? not) hs.live
  rwa [List.findIdx?_map, List.findIdx?_map] at hlive

theorem liveContext_eq {h : Byte} (hs : AlikeBut k s s') (hk : h ≠ k) : liveContext s h = liveContext s' h :=
  liveContext_congr (hs.others _ fun heq => hk (BitVec.eq_of_toNat_eq heq))

theorem deliver (r : Response) (hs : AlikeBut k s s') : AlikeBut k (deliver r s) (deliver r s') :=
  { hs with responses := by simp [hs.responses] }

theorem exhaust (hs : AlikeBut k s s') : AlikeBut k (exhaust s) (exhaust s') :=
  { hs with
    fatal := rfl
    responses := by simp [hs.responses] }

/-- The same context written into both blocks, at any number, `k` included. -/
theorem writeContext (j : Nat) (c : Context) (hs : AlikeBut k s s') :
    AlikeBut k (writeContext j c s) (writeContext j c s') :=
  { hs with
    live := by simp [List.map_set, hs.live]
    others := fun m hm => by simp [List.getElem?_set, hs.others m hm, hs.ctx_length] }

theorem resetBlock (hs : AlikeBut k s s') : AlikeBut k (resetBlock s) (resetBlock s') :=
  { hs with
    live := by simp [hs.ctx_length]
    others := fun m _ => by simp [hs.ctx_length]
    fatal := rfl }

theorem whenServing {body : State → State} (hs : AlikeBut k s s') (hb : AlikeBut k (body s) (body s')) :
    AlikeBut k (whenServing s body) (whenServing s' body) :=
  whenServing_rel hs.fatal (hs.deliver _) hb

theorem withFree {body body' : Nat → State} (hs : AlikeBut k s s') (hb : ∀ j, AlikeBut k (body j) (body' j)) :
    AlikeBut k (withFree s body) (withFree s' body') :=
  withFree_rel hs.freeContext_eq hs.exhaust hb

/-- The checks of FATAL and of a handle other than `k` come out alike. -/
theorem checked {h : Byte} {body : State → Context → State} (hs : AlikeBut k s s') (hk : h ≠ k)
    (hb : ∀ c, AlikeBut k (body s c) (body s' c)) :
    AlikeBut k (Machine.whenServing s fun s => withLive h s (body s))
      (Machine.whenServing s' fun s => withLive h s (body s)) :=
  hs.whenServing (withLive_rel (hs.liveContext_eq hk) (hs.deliver _) hb)

/-- A command that does not name `k` keeps the two blocks alike; an allocation that takes `k` writes the same into both. -/
theorem exec {i : Instr} (hs : AlikeBut k s s') (hi : i.handle? ≠ some k) :
    ∃ t t', exec i s = .next t ∧ exec i s' = .next t' ∧ AlikeBut k t t' := by
  have named {h : Byte} (hh : i.handle? = some h) : h ≠ k := fun heq => hi (heq ▸ hh)
  cases i with
  | new =>
    exact ⟨_, _, rfl, rfl, hs.whenServing <| hs.withFree fun j => (hs.writeContext j Context.fresh).deliver _⟩
  | absorb h b =>
    exact ⟨_, _, rfl, rfl, hs.checked (named rfl) fun c => (hs.writeContext h.toNat (c.absorb b)).deliver _⟩
  | digest h => exact ⟨_, _, rfl, rfl, hs.checked (named rfl) fun c => hs.deliver _⟩
  | copy h =>
    exact ⟨_, _, rfl, rfl, hs.checked (named rfl) fun c => hs.withFree fun j => (hs.writeContext j _).deliver _⟩
  | drop h =>
    exact ⟨_, _, rfl, rfl, hs.checked (named rfl) fun c => (hs.writeContext h.toNat Context.free).deliver _⟩

theorem runAction {a : HostAction} (hs : AlikeBut k s s') (ha : namesHandle k a = false) :
    ∃ t t', runAction a s = .next t ∧ runAction a s' = .next t' ∧ AlikeBut k t t' := by
  cases a with
  | reset => exact ⟨_, _, rfl, rfl, hs.resetBlock⟩
  | command w =>
    simp only [Machine.runAction]
    cases hw : decode w with
    | ok i =>
      rw [runWord_of_decode_ok hw, runWord_of_decode_ok hw]
      exact hs.exec (by simpa [namesHandle, hw] using ha)
    | error why =>
      rw [runWord_of_decode_error hw, runWord_of_decode_error hw]
      exact ⟨_, _, rfl, rfl, hs.whenServing (hs.deliver _)⟩

/-- Every step keeps the two blocks alike. -/
theorem step (hs : AlikeBut k s s') :
    ∃ t t', step s = .next t ∧ step s' = .next t' ∧ AlikeBut k t t' := by
  cases hin : s.inbox with
  | nil => exact ⟨s, s', step_of_inbox_nil hin, step_of_inbox_nil (hs.inbox ▸ hin), hs⟩
  | cons a rest =>
    have hunnamed : ∀ b ∈ a :: rest, namesHandle k b = false := hin ▸ hs.unnamed
    have htaken : AlikeBut k { s with inbox := rest } { s' with inbox := rest } :=
      { hs with
        inbox := rfl
        unnamed := fun b hb => hunnamed b (List.mem_cons_of_mem a hb) }
    rw [step_of_inbox_cons hin, step_of_inbox_cons (hs.inbox ▸ hin)]
    exact htaken.runAction (hunnamed a List.mem_cons_self)

/-- Every run keeps the two blocks alike. -/
theorem runSteps (n : Nat) (hs : AlikeBut k s s') :
    ∃ t t', runSteps n s = .next t ∧ runSteps n s' = .next t' ∧ AlikeBut k t t' := by
  induction n generalizing s s' with
  | zero => exact ⟨s, s', rfl, rfl, hs⟩
  | succ n ih =>
    obtain ⟨u, u', hu, hu', halike⟩ := hs.step
    rw [runSteps_succ n hu, runSteps_succ n hu']
    exact ih halike

/-- Another live context written over live context `k` gives a block alike but there. -/
theorem of_set {c c' : Context} (hc : s.ctx[k.toNat]? = some c) (hl : c.live = true) (hl' : c'.live = true)
    (hun : ∀ a ∈ s.inbox, namesHandle k a = false) :
    AlikeBut k s { s with ctx := s.ctx.set k.toNat c' } := by
  obtain ⟨hk, rfl⟩ := List.getElem?_eq_some_iff.1 hc
  have hlive : (s.ctx.map (·.live)).set k.toNat c'.live = s.ctx.map (·.live) := by
    rw [hl', ← hl, ← List.map_set, List.set_getElem_self]
  exact
    { live := by simpa [List.map_set] using hlive.symm
      others := fun j hj => by simp [List.getElem?_set_ne hj.symm]
      fatal := rfl
      inbox := rfl
      responses := rfl
      unnamed := hun }

end AlikeBut

/-- Settles O52: the two blocks are alike but in the unnamed context, and every run keeps them so. -/
theorem unnamedContextIsNotObservable : Obligations.UnnamedContextIsNotObservable := by
  rintro n s _ k c c' hc hl hl' rfl hun
  obtain ⟨t, t', ht, ht', halike⟩ := (AlikeBut.of_set hc hl hl' hun).runSteps n
  exact ⟨t, t', ht, ht', halike.responses, halike.fatal, halike.inbox⟩

end Sys2Proof.Machine
end

section
/-! The bytes of a Keccak state, bit by bit, and the byte that XorStateByte changes (20_memory R25). -/

namespace Sys2Proof.Machine

variable (A : Lanes) (k j : Fin 200) (b : Byte)

theorem getLsbD_stateByte {i : Nat} (hi : i < 8) :
    (stateByte A k).getLsbD i = (A[k.val / 8]'(by omega)).getLsbD (8 * (k.val % 8) + i) := by
  simp [stateByte, byteShift, hi]

/-- A byte moved up to its place in a lane covers the eight bits from there on. -/
theorem getLsbD_shifted_byte {n i : Nat} (hi : i < 64) :
    (b.setWidth 64 <<< n).getLsbD i = (decide (n ≤ i ∧ i < n + 8) && b.getLsbD (i - n)) := by
  by_cases hn : n ≤ i
  · by_cases hw : i < n + 8
    · simp [hi, hn, hw]
    · have hout : b.getLsbD (i - n) = false := BitVec.getLsbD_of_ge _ _ (by omega)
      simp [hout]
  · simp [hn]

theorem getLsbD_xorStateByte (l : Fin 25) {i : Nat} (hi : i < 64) :
    ((xorStateByte A k b)[l]).getLsbD i =
      if l.val = k.val / 8 ∧ 8 * (k.val % 8) ≤ i ∧ i < 8 * (k.val % 8) + 8
      then (A[l].getLsbD i ^^ b.getLsbD (i - 8 * (k.val % 8)))
      else A[l].getLsbD i := by
  simp only [Fin.getElem_fin, xorStateByte_getElem A k b l.val l.isLt, byteShift]
  by_cases hl : l.val = k.val / 8
  · by_cases hbits : 8 * (k.val % 8) ≤ i ∧ i < 8 * (k.val % 8) + 8 <;>
      simp [hl, hbits, getLsbD_shifted_byte b hi, -BitVec.getLsbD_shiftLeft]
  · simp only [hl, Ne.symm hl, if_false, false_and]

/-- Settles O17: XorStateByte writes one lane, and XORs there a byte moved up to its place. -/
theorem byteViewIsLittleEndianInLanes : Obligations.ByteViewIsLittleEndianInLanes :=
  ⟨fun A k _ hi => getLsbD_stateByte A k hi, fun A k b l _ hi => getLsbD_xorStateByte A k b l hi⟩

/-- The bits that XorStateByte changes are those of byte k, so every other byte reads as before. -/
theorem stateByte_xorStateByte :
    stateByte (xorStateByte A k b) j = if j = k then stateByte A k ^^^ b else stateByte A j := by
  apply BitVec.eq_of_getLsbD_eq
  intro i hi
  have hread := getLsbD_xorStateByte A k b ⟨j.val / 8, by omega⟩ (i := 8 * (j.val % 8) + i) (by omega)
  simp only [Fin.getElem_fin] at hread
  rw [getLsbD_stateByte _ j hi, hread]
  by_cases hjk : j = k
  · subst hjk
    have hbits : 8 * (j.val % 8) ≤ 8 * (j.val % 8) + i ∧ 8 * (j.val % 8) + i < 8 * (j.val % 8) + 8 := by omega
    simp only [hbits, and_self, if_true, BitVec.getLsbD_xor, getLsbD_stateByte A j hi, Nat.add_sub_cancel_left]
  · have hbits : ¬(j.val / 8 = k.val / 8 ∧
        8 * (k.val % 8) ≤ 8 * (j.val % 8) + i ∧ 8 * (j.val % 8) + i < 8 * (k.val % 8) + 8) := by
      omega
    rw [if_neg hbits, if_neg hjk, getLsbD_stateByte A j hi]

/-- XORing the same byte twice leaves the lanes as they were (vector V-B5). -/
theorem xorStateByte_xorStateByte : xorStateByte (xorStateByte A k b) k b = A := by
  apply Vector.ext
  intro i hi
  rw [xorStateByte_getElem _ k b i hi, xorStateByte_getElem A k b i hi]
  by_cases hlane : k.val / 8 = i
  · rw [if_pos hlane, if_pos hlane, BitVec.xor_assoc, BitVec.xor_self, BitVec.xor_zero]
  · rw [if_neg hlane, if_neg hlane]

/-- Settles O18: a read compared bit by bit, and the two XORs cancelled lane by lane. -/
theorem xoredByteReadsBackAndOthersStay : Obligations.XoredByteReadsBackAndOthersStay :=
  ⟨stateByte_xorStateByte, xorStateByte_xorStateByte⟩

end Sys2Proof.Machine
end

section
/-! What the commands that name a live handle leave on a serving block (41_sponge R71 to R73). -/

namespace Sys2Proof.Machine

variable {s : State} {h : Byte} {c : Context}

theorem exec_absorb_live (b : Byte) (hf : s.fatal = false) (hc : liveContext s h = some c) :
    exec (.absorb h b) s = .next (respondOk 0 zeroPayload (writeContext h.toNat (c.absorb b) s)) := by
  simp only [exec, execAbsorb, whenServing_serving hf, withLive_some hc]

theorem exec_digest_live (hf : s.fatal = false) (hc : liveContext s h = some c) :
    exec (.digest h) s = .next (respondOk 0 (digestOf c.lanes c.cur) s) := by
  simp only [exec, execDigest, whenServing_serving hf, withLive_some hc]

theorem exec_copy_live {j : Nat} (hf : s.fatal = false) (hc : liveContext s h = some c) (hj : freeContext s = some j) :
    exec (.copy h) s = .next (respondOk (handleOf j) zeroPayload (writeContext j c s)) := by
  have hcopy : ({ live := true, lanes := c.lanes, cur := c.cur } : Context) = c := by
    rw [← (liveContext_eq_some.1 hc).2]
  simp only [exec, execCopy, whenServing_serving hf, withLive_some hc, withFree_some hj, hcopy]

/-- After ABSORB the context it names has absorbed the byte, and every other context is as it was. -/
theorem exec_absorb_ctx (b : Byte) (hf : s.fatal = false) (hc : s.ctx[h.toNat]? = some c) (hl : c.live = true) :
    ∃ t, exec (.absorb h b) s = .next t ∧ t.ctx[h.toNat]? = some (c.absorb b) ∧
      ∀ j, j ≠ h.toNat → t.ctx[j]? = s.ctx[j]? := by
  obtain ⟨hlt, -⟩ := List.getElem?_eq_some_iff.1 hc
  exact ⟨_, exec_absorb_live b hf (liveContext_eq_some.2 ⟨hc, hl⟩), List.getElem?_set_self hlt,
    fun j hj => List.getElem?_set_ne hj.symm⟩

theorem freeContext_lt_length {j : Nat} (hj : freeContext s = some j) : j < s.ctx.length := by
  obtain ⟨⟨d, hd, -⟩, -⟩ := freeContext_eq_some.1 hj
  exact (List.getElem?_eq_some_iff.1 hd).1

/-- After COPY the block still serves, the context allocated equals the source, and every other context is as it was. -/
theorem exec_copy_ctx {j : Nat} (hf : s.fatal = false) (hc : s.ctx[h.toNat]? = some c) (hl : c.live = true)
    (hj : freeContext s = some j) :
    ∃ t, exec (.copy h) s = .next t ∧ t.fatal = false ∧ t.ctx[j]? = some c ∧
      ∀ i, i ≠ j → t.ctx[i]? = s.ctx[i]? := by
  exact ⟨_, exec_copy_live hf (liveContext_eq_some.2 ⟨hc, hl⟩) hj, hf,
    List.getElem?_set_self (freeContext_lt_length hj), fun i hi => List.getElem?_set_ne hi.symm⟩

end Sys2Proof.Machine
end

section
/-! ABSORB below a full block (20_memory R26, R27; 41_sponge R65). -/

namespace Sys2Proof.Machine

@[simp] theorem rateByte_val (k : Fin 136) : (rateByte k).val = k.val := rfl

/-- Below a full block AbsorbByte runs no permutation. -/
theorem absorbByte_of_lt (A : Lanes) (cur : Fin 136) (b : Byte) (hcur : cur.val < 135) :
    absorbByte A cur b = (xorStateByte A (rateByte cur) b, ⟨cur.val + 1, by omega⟩) := by
  have hne : cur.val + 1 ≠ Config.rate := by simp only [Config.rate]; omega
  simp only [absorbByte, dif_neg hne]

/-- Settles O34: below a full block the only change of the lanes is XorStateByte at the cursor. -/
theorem absorbBelowFullBlockChangesOneByte : Obligations.AbsorbBelowFullBlockChangesOneByte := by
  intro s h b c hf hc hl hcur
  obtain ⟨t, ht, hd, -⟩ := exec_absorb_ctx b hf hc hl
  have hbyte := absorbByte_of_lt c.lanes c.cur b hcur
  refine ⟨t, _, ht, hd, hl, by rw [absorb_cur, hbyte], fun k => ?_⟩
  simp only [absorb_lanes, hbyte, stateByte_xorStateByte, Fin.ext_iff, rateByte_val]
  by_cases hk : k.val = c.cur.val
  · obtain rfl : k = rateByte c.cur := Fin.ext hk
    rfl
  · rw [if_neg hk, if_neg hk]

end Sys2Proof.Machine
end

section
/-! Contexts are independent: a clone and its source, and two handles in either order (20_memory R39, 41_sponge R73). -/

namespace Sys2Proof.Machine

variable {s : State} {h : Byte} {c : Context}

/-- The handle of one of at most 256 contexts is its number (log entry 11). -/
theorem toNat_handleOf {j : Nat} (hj : j < 256) : (handleOf j).toNat = j := by
  rw [handleOf, BitVec.toNat_ofNat, Nat.mod_eq_of_lt hj]

/-- A free context has another number than a live one. -/
theorem freeContext_ne_of_live {j : Nat} (hj : freeContext s = some j) (hc : s.ctx[h.toNat]? = some c)
    (hl : c.live = true) : j ≠ h.toNat := by
  rintro rfl
  obtain ⟨⟨d, hd, hfree⟩, -⟩ := freeContext_eq_some.1 hj
  obtain rfl : c = d := Option.some.inj (hc.symm.trans hd)
  exact Bool.false_ne_true (hfree.symm.trans hl)

/-- Settles O48: source and clone are one context under two numbers, and an ABSORB changes the context of its number only. -/
theorem cloneIsEqualAndIndependent : Obligations.CloneIsEqualAndIndependent := by
  intro s h b c j hf hlen hc hl hj
  have hne := freeContext_ne_of_live hj hc hl
  have hnum : (handleOf j).toNat = j := toNat_handleOf ((freeContext_lt_length hj).trans_le hlen)
  obtain ⟨t, ht, htf, hclone, htkeep⟩ := exec_copy_ctx hf hc hl hj
  have hsource : t.ctx[h.toNat]? = some c := (htkeep h.toNat hne.symm).trans hc
  obtain ⟨u, hu, huh, hukeep⟩ := exec_absorb_ctx b htf hsource hl
  obtain ⟨v, hv, hvj, hvkeep⟩ := exec_absorb_ctx (h := handleOf j) b htf (by rwa [hnum]) hl
  rw [hnum] at hvj hvkeep
  exact ⟨t, u, v, ht, hclone, hsource, hu, (hukeep j hne).trans hclone, hv,
    (hvkeep h.toNat hne.symm).trans hsource, huh.trans hvj.symm⟩

theorem writeContext_comm {i j : Nat} (hij : i ≠ j) (c d : Context) (s : State) :
    writeContext i c (writeContext j d s) = writeContext j d (writeContext i c s) := by
  simp only [writeContext, List.set_comm _ _ hij]

/-- ABSORB on one live handle and then on another, as one state: both contexts written, and two responses. -/
theorem exec_absorb_absorb {h' : Byte} {c' : Context} (b b' : Byte) (hnum : h.toNat ≠ h'.toNat)
    (hf : s.fatal = false) (hc : liveContext s h = some c) (hc' : liveContext s h' = some c') :
    ∃ t, exec (.absorb h b) s = .next t ∧ exec (.absorb h' b') t = .next
      (respondOk 0 zeroPayload (respondOk 0 zeroPayload
        (writeContext h'.toNat (c'.absorb b') (writeContext h.toNat (c.absorb b) s)))) := by
  refine ⟨_, exec_absorb_live b hf hc, ?_⟩
  have hkept : liveContext (respondOk 0 zeroPayload (writeContext h.toNat (c.absorb b) s)) h' = some c' :=
    (liveContext_congr (List.getElem?_set_ne hnum)).trans hc'
  exact exec_absorb_live b' hf hkept

/-- Settles O49: both orders write the same two contexts and give the same two responses. -/
theorem absorbsOnDifferentHandlesCommute : Obligations.AbsorbsOnDifferentHandlesCommute := by
  intro s h h' b b' c c' hne hf hc hl hc' hl'
  have hlive : liveContext s h = some c := liveContext_eq_some.2 ⟨hc, hl⟩
  have hlive' : liveContext s h' = some c' := liveContext_eq_some.2 ⟨hc', hl'⟩
  have hnum : h.toNat ≠ h'.toNat := fun heq => hne (BitVec.eq_of_toNat_eq heq)
  obtain ⟨t, ht, hu⟩ := exec_absorb_absorb b b' hnum hf hlive hlive'
  obtain ⟨t', ht', hu'⟩ := exec_absorb_absorb b' b hnum.symm hf hlive' hlive
  exact ⟨t, _, t', _, ht, hu, ht', hu', by rw [writeContext_comm hnum]⟩

end Sys2Proof.Machine
end

section
/-! A step as the command it runs, and the command that writes nothing (20_memory R32, R34). -/

namespace Sys2Proof.Machine

/-- Settles O1: the host's next action is taken, and the word it issues decodes to the command. -/
theorem stepRunsTheDecodedCommand : Obligations.StepRunsTheDecodedCommand := by
  intro s w rest i hin hw
  rw [step_of_inbox_cons hin, runAction, runWord_of_decode_ok hw]

/-- Settles O43: DIGEST writes no context, so the second finds what the first found. -/
theorem digestIsIdempotent : Obligations.DigestIsIdempotent := by
  intro s h c hf hc hl
  have hlive : liveContext s h = some c := liveContext_eq_some.2 ⟨hc, hl⟩
  refine ⟨_, _, ⟨.ok, 0, digestOf c.lanes c.cur⟩, exec_digest_live hf hlive,
    exec_digest_live (c := c) hf hlive, rfl, rfl, hf, hf, rfl, ?_⟩
  simp only [respondOk_responses, List.append_assoc, List.singleton_append]

end Sys2Proof.Machine
end

section
/-! The four fields of a command word (30_encoding R40), and the command they spell. -/

namespace Sys2Proof.Machine

open Sys2Proof.Laws.FieldsLegal (ofWord_word)

variable {w : Word} {i : Instr}

/-- A command word is its four fields, one after the other. -/
theorem word_ofWord (w : Word) : (Fields.ofWord w).word = w := by
  simp only [Fields.word, Fields.ofWord]
  rw [BitVec.extractLsb'_append_extractLsb'_eq_extractLsb' (by rfl),
    BitVec.extractLsb'_append_extractLsb'_eq_extractLsb' (by rfl),
    BitVec.extractLsb'_append_extractLsb'_eq_extractLsb' (by rfl), BitVec.extractLsb'_eq_self]

/-- A word whose RSV is 0, as the encoding lines of 41_sponge R70 to R74 put it together. -/
theorem word_of_rsv_zero (op : BitVec 4) (h d : Byte) :
    Fields.word { op := op, rsv := 0, h := h, d := d } =
      (op.setWidth 32 <<< 28) ||| (h.setWidth 32 <<< 8) ||| d.setWidth 32 := by
  simp only [Fields.word]
  ext j hj
  simp only [BitVec.getElem_append, BitVec.getElem_or, BitVec.getElem_shiftLeft, BitVec.getElem_setWidth]
  grind

theorem encode_eq_word (i : Instr) : encode i = i.fields.word := by
  cases i <;> simp only [Instr.fields, word_of_rsv_zero] <;> simp [encode]

theorem ofWord_encode (i : Instr) : Fields.ofWord (encode i) = i.fields := by
  rw [encode_eq_word, ofWord_word]

theorem decode_of_fields (hw : Fields.ofWord w = i.fields) : decode w = .ok i := by
  have hop : fieldOp w = i.fields.op := congrArg Fields.op hw
  have hrsv : fieldRsv w = i.fields.rsv := congrArg Fields.rsv hw
  have hh : fieldH w = i.fields.h := congrArg Fields.h hw
  have hd : fieldD w = i.fields.d := congrArg Fields.d hw
  cases i <;> simp [decode, decodeFields, hop, hrsv, hh, hd, Instr.fields]

/-- A word the decoder accepts has a known opcode, RSV 0, and the command its opcode, H and D spell. -/
theorem decodeFields_of_decode (hw : decode w = .ok i) :
    fieldRsv w = 0 ∧ decodeFields (fieldOp w).toNat (fieldH w) (fieldD w) = .ok i := by
  unfold decode at hw
  split at hw
  · cases hw
  · split at hw
    · cases hw
    · next hrsv => exact ⟨by simpa using hrsv, hw⟩

/-- A field that must be 0 is checked before the command is answered. -/
theorem checked_eq_ok {x : Byte} {why : Illegal} {r : Except Illegal Instr} :
    (if x ≠ 0 then .error why else r) = .ok i ↔ x = 0 ∧ r = .ok i := by
  split <;> simp_all

theorem fields_of_decodeFields {op : Nat} {h d : Byte} (hw : decodeFields op h d = .ok i) :
    { op := BitVec.ofNat 4 op, rsv := 0, h := h, d := d } = i.fields := by
  unfold decodeFields at hw
  split at hw
  case h_1 =>
    obtain ⟨rfl, rfl, ⟨⟩⟩ := (checked_eq_ok.trans (and_congr_right' checked_eq_ok)).1 hw
    rfl
  case h_2 =>
    cases hw
    rfl
  case h_3 | h_4 | h_5 =>
    obtain ⟨rfl, ⟨⟩⟩ := checked_eq_ok.1 hw
    rfl
  case h_6 => cases hw

theorem decode_eq_ok : decode w = .ok i ↔ Fields.ofWord w = i.fields := by
  refine ⟨fun hw => ?_, decode_of_fields⟩
  obtain ⟨hrsv, hfields⟩ := decodeFields_of_decode hw
  rw [← fields_of_decodeFields hfields, BitVec.ofNat_toNat, BitVec.setWidth_eq, ← hrsv]
  rfl

@[simp] theorem decode_encode (i : Instr) : decode (encode i) = .ok i :=
  decode_eq_ok.2 (ofWord_encode i)

theorem wellFormed_fields (i : Instr) : i.wellFormed = true := by
  cases i with
  | new => exact Laws.FieldsLegal.new.1
  | absorb h b => exact (Laws.FieldsLegal.absorb h b).1
  | digest h => exact (Laws.FieldsLegal.digest h).1
  | copy h => exact (Laws.FieldsLegal.copy h).1
  | drop h => exact (Laws.FieldsLegal.drop h).1

/-- Settles O3: a command's word has the command's fields, and the decoder reads those. -/
theorem decodeOfEncodeIsTheCommand : Obligations.DecodeOfEncodeIsTheCommand :=
  fun i => ⟨wellFormed_fields i, decode_encode i⟩

/-- Settles O4: the word has its command's fields, and a word is its fields. -/
theorem encodeOfDecodeIsTheWord : Obligations.EncodeOfDecodeIsTheWord := by
  intro w i hw
  rw [encode_eq_word, ← decode_eq_ok.1 hw, word_ofWord]

end Sys2Proof.Machine
end

section
/-! The decoder, the check of the raw fields and the opcode map accept the same words (30_encoding R42 to R44). -/

namespace Sys2Proof.Machine

variable {w : Word} {i : Instr} {f : Fields}

/-- The field check, read as the rule writes it (30_encoding R43). -/
theorem wellFormed_iff :
    f.wellFormed = true ↔
      (1 ≤ f.op.toNat ∧ f.op.toNat ≤ 5) ∧ f.rsv = 0 ∧ (f.op = 1 → f.h = 0) ∧ (f.op ≠ 2 → f.d = 0) := by
  simp only [Fields.wellFormed, Fields.opKnown, Fields.rsvOk, Fields.hOk, Fields.dOk, Bool.and_eq_true,
    Bool.or_eq_true, decide_eq_true_eq, beq_iff_eq, bne_iff_ne, and_assoc, imp_iff_not_or, ne_eq, not_not]

/-- The opcodes of 30_encoding R42. -/
theorem opcode_cases {op : BitVec 4} (h1 : 1 ≤ op.toNat) (h5 : op.toNat ≤ 5) :
    op = 1 ∨ op = 2 ∨ op = 3 ∨ op = 4 ∨ op = 5 := by
  bv_omega

/-- Fields that pass the check are those of a command. -/
theorem exists_fields_of_wellFormed (hf : f.wellFormed = true) : ∃ i : Instr, f = i.fields := by
  obtain ⟨op, rsv, h, d⟩ := f
  obtain ⟨⟨h1, h5⟩, rfl, hh, hd⟩ := wellFormed_iff.1 hf
  obtain rfl | rfl | rfl | rfl | rfl := opcode_cases h1 h5
  · obtain rfl := hh rfl
    obtain rfl := hd (by simp)
    exact ⟨.new, rfl⟩
  · exact ⟨.absorb h d, rfl⟩
  · obtain rfl := hd (by simp)
    exact ⟨.digest h, rfl⟩
  · obtain rfl := hd (by simp)
    exact ⟨.copy h, rfl⟩
  · obtain rfl := hd (by simp)
    exact ⟨.drop h, rfl⟩

theorem exists_decode_ok_iff : (∃ i, decode w = .ok i) ↔ (Fields.ofWord w).wellFormed = true := by
  simp only [decode_eq_ok]
  exact ⟨fun ⟨i, hi⟩ => hi ▸ wellFormed_fields i, exists_fields_of_wellFormed⟩

/-- Settles O7: both accept the words whose fields are those of a command. -/
theorem decoderAgreesWithFieldCheck : Obligations.DecoderAgreesWithFieldCheck :=
  fun _ => exists_decode_ok_iff

/-- Equal words have equal fields, and the other way round. -/
theorem ofWord_inj {v : Word} : Fields.ofWord w = Fields.ofWord v ↔ w = v :=
  ⟨fun h => by rw [← word_ofWord w, h, word_ofWord], congrArg _⟩

/-- A word matches a row when each of its fields does. -/
theorem rowMatches_iff_fields {r : OpcodeRow} :
    rowMatches w r = true ↔
      fieldOp w &&& fieldOp r.mask = fieldOp r.value ∧ fieldRsv w &&& fieldRsv r.mask = fieldRsv r.value ∧
        fieldH w &&& fieldH r.mask = fieldH r.value ∧ fieldD w &&& fieldD r.mask = fieldD r.value := by
  simp only [rowMatches, beq_iff_eq, ← ofWord_inj, Fields.ofWord, Fields.mk.injEq, BitVec.extractLsb'_and]
  rfl

theorem instr_exists_iff {P : Instr → Prop} :
    (∃ i, P i) ↔ P .new ∨ (∃ h b, P (.absorb h b)) ∨ (∃ h, P (.digest h)) ∨ (∃ h, P (.copy h)) ∨ ∃ h, P (.drop h) := by
  constructor
  · rintro ⟨_ | ⟨h, b⟩ | h | h | h, hi⟩
    · exact .inl hi
    · exact .inr (.inl ⟨h, b, hi⟩)
    · exact .inr (.inr (.inl ⟨h, hi⟩))
    · exact .inr (.inr (.inr (.inl ⟨h, hi⟩)))
    · exact .inr (.inr (.inr (.inr ⟨h, hi⟩)))
  · rintro (hi | ⟨_, _, hi⟩ | ⟨_, hi⟩ | ⟨_, hi⟩ | ⟨_, hi⟩) <;> exact ⟨_, hi⟩

/-- A row matches the words of the commands of its mnemonic: each mask covers the fields that are no operand of them. -/
theorem rowMatches_iff_decode {r : OpcodeRow} (hr : r ∈ opcodeRows) :
    rowMatches w r = true ↔ ∃ i, decode w = .ok i ∧ r.mnemonic = mnemonic i := by
  have op_all (x : BitVec 4) : x &&& 15#4 = x := BitVec.and_allOnes
  have rsv_all (x : BitVec 12) : x &&& 4095#12 = x := BitVec.and_allOnes
  have byte_all (x : Byte) : x &&& 255#8 = x := BitVec.and_allOnes
  simp only [rowMatches_iff_fields, decode_eq_ok, instr_exists_iff, mnemonic]
  simp only [opcodeRows, List.mem_cons, List.not_mem_nil, or_false] at hr
  obtain rfl | rfl | rfl | rfl | rfl := hr <;>
    simp [Instr.fields, Fields.ofWord, fieldOp, fieldRsv, fieldH, fieldD, op_all, rsv_all, byte_all]

/-- Every command has a row, and no two rows have one mnemonic. -/
theorem exists_row (i : Instr) : ∃ r ∈ opcodeRows, r.mnemonic = mnemonic i := by
  cases i <;> simp [opcodeRows, mnemonic]

theorem row_eq_of_mnemonic_eq : ∀ r ∈ opcodeRows, ∀ r' ∈ opcodeRows, r.mnemonic = r'.mnemonic → r = r' := by
  decide

theorem exists_decode_ok_iff_row : (∃ i, decode w = .ok i) ↔ ∃ r ∈ opcodeRows, rowMatches w r = true := by
  constructor
  · rintro ⟨i, hi⟩
    obtain ⟨r, hr, hm⟩ := exists_row i
    exact ⟨r, hr, (rowMatches_iff_decode hr).2 ⟨i, hi, hm⟩⟩
  · rintro ⟨r, hr, hm⟩
    obtain ⟨i, hi, -⟩ := (rowMatches_iff_decode hr).1 hm
    exact ⟨i, hi⟩

/-- The rows a word matches are those of the mnemonic of the command it spells. -/
theorem rowMatches_iff_mnemonic {r : OpcodeRow} (hw : decode w = .ok i) (hr : r ∈ opcodeRows) :
    rowMatches w r = true ↔ r.mnemonic = mnemonic i := by
  rw [rowMatches_iff_decode hr, hw]
  simp

/-- Settles O5: a row matches the words of its mnemonic's commands, and a word spells one command. -/
theorem decoderAgreesWithOpcodeMap : Obligations.DecoderAgreesWithOpcodeMap := by
  refine ⟨fun _ => exists_decode_ok_iff_row, fun _ _ hw _ => rowMatches_iff_mnemonic hw, ?_⟩
  intro w r hr r' hr' hm hm'
  obtain ⟨i, hi, hri⟩ := (rowMatches_iff_decode hr).1 hm
  exact row_eq_of_mnemonic_eq r hr r' hr' (hri.trans ((rowMatches_iff_mnemonic hi hr').1 hm').symm)

end Sys2Proof.Machine
end

section
/-! The illegal words, and what a step does with one (30_encoding R44). -/

namespace Sys2Proof.Machine

variable {w : Word} {s : State}

theorem exists_decode_error_iff : (∃ e, decode w = .error e) ↔ ¬∃ i, decode w = .ok i := by
  cases decode w <;> simp

/-- The cases of 30_encoding R44 are those in which the field check fails. -/
theorem exists_decode_error_iff_fields :
    (∃ e, decode w = .error e) ↔
      fieldOp w = 0 ∨ 6 ≤ (fieldOp w).toNat ∨ fieldRsv w ≠ 0 ∨
        (fieldOp w = 1 ∧ fieldH w ≠ 0) ∨ (fieldOp w ≠ 2 ∧ fieldD w ≠ 0) := by
  have hzero : fieldOp w = 0 ↔ ¬1 ≤ (fieldOp w).toNat := by bv_omega
  have hsix : 6 ≤ (fieldOp w).toNat ↔ ¬(fieldOp w).toNat ≤ 5 := by omega
  have hcheck : (Fields.ofWord w).wellFormed = true ↔
      (1 ≤ (fieldOp w).toNat ∧ (fieldOp w).toNat ≤ 5) ∧ fieldRsv w = 0 ∧
        (fieldOp w = 1 → fieldH w = 0) ∧ (fieldOp w ≠ 2 → fieldD w = 0) := wellFormed_iff
  rw [exists_decode_error_iff, exists_decode_ok_iff, hcheck, hzero, hsix]
  simp only [not_and_or, Classical.not_imp, or_assoc, ne_eq]

theorem exists_decode_error_iff_no_row :
    (∃ e, decode w = .error e) ↔ ∀ r ∈ opcodeRows, rowMatches w r = false := by
  rw [exists_decode_error_iff, exists_decode_ok_iff_row]
  simp

theorem rejectIllegal_serving (why : Illegal) (hf : s.fatal = false) : rejectIllegal why s = raise .illegal s :=
  whenServing_serving hf

/-- Settles O6: the decoder's errors by fields and by rows, and the rejection of the word the host issues next. -/
theorem illegalWordsAreRejected : Obligations.IllegalWordsAreRejected := by
  refine fun w => ⟨exists_decode_error_iff_fields, exists_decode_error_iff_no_row, fun s rest e hin hw hf => ?_⟩
  rw [step_of_inbox_cons hin, runAction, runWord_of_decode_error hw]
  exact congrArg _ (rejectIllegal_serving (s := { s with inbox := rest }) e hf)

end Sys2Proof.Machine
end

section
/-! A run of ABSORB, one step a byte (30_encoding R50, 41_sponge R75). -/

namespace Sys2Proof.Machine

variable {s : State} {h : Byte} {c : Context}

/-- A context after absorbing bytes in order (41_sponge R75). -/
def Context.absorbAll (c : Context) (m : List Byte) : Context :=
  { c with lanes := (absorbSeq (c.lanes, c.cur) m).1, cur := (absorbSeq (c.lanes, c.cur) m).2 }

@[simp] theorem absorbAll_nil (c : Context) : c.absorbAll [] = c := rfl

@[simp] theorem absorbAll_cons (c : Context) (b : Byte) (m : List Byte) :
    c.absorbAll (b :: m) = (c.absorb b).absorbAll m := rfl

@[simp] theorem absorbAll_live (c : Context) (m : List Byte) : (c.absorbAll m).live = c.live := rfl

/-- The block after ABSORB of each byte into context `h`, which held `c`: the context written, and a response a byte. -/
def absorbedInto (h : Byte) (c : Context) (m : List Byte) (s : State) : State :=
  { writeContext h.toNat (c.absorbAll m) s with
    responses := s.responses ++ List.replicate m.length { status := .ok, handle := 0, payload := zeroPayload } }

theorem absorbedInto_nil (hc : liveContext s h = some c) : absorbedInto h c [] s = s := by
  obtain ⟨hlt, rfl⟩ := List.getElem?_eq_some_iff.1 (liveContext_eq_some.1 hc).1
  simp [absorbedInto, writeContext]

theorem absorbedInto_cons (b : Byte) (m : List Byte) :
    absorbedInto h (c.absorb b) m (respondOk 0 zeroPayload (writeContext h.toNat (c.absorb b) s)) =
      absorbedInto h c (b :: m) s := by
  simp [absorbedInto, writeContext, respondOk, deliver, List.replicate_succ]

/-- A handle names the context just written to its number, when there is one and it is live. -/
theorem liveContext_writeContext (hlt : h.toNat < s.ctx.length) (hl : c.live = true) :
    liveContext (writeContext h.toNat c s) h = some c :=
  liveContext_eq_some.2 ⟨List.getElem?_set_self hlt, hl⟩

theorem liveContext_lt_length (hc : liveContext s h = some c) : h.toNat < s.ctx.length :=
  (List.getElem?_eq_some_iff.1 (liveContext_eq_some.1 hc).1).1

@[simp] theorem issueAll_nil (s : State) : issueAll [] s = s := rfl

theorem issueAll_append (is js : List Instr) (s : State) : issueAll (is ++ js) s = issueAll is (issueAll js s) := by
  simp [issueAll]

/-- The first of the commands the host issues is the one the step runs, and the others stay in the inbox. -/
theorem step_issueAll_cons (i : Instr) (is : List Instr) (s : State) :
    step (issueAll (i :: is) s) = exec i (issueAll is s) := by
  rw [step_of_inbox_cons (s := issueAll (i :: is) s) (rest := asActions is ++ s.inbox) rfl, runAction,
    runWord_of_decode_ok (decode_encode i)]
  rfl

/-- One step a byte absorbs the bytes in order, whatever the host issues afterwards. -/
theorem runSteps_absorbBytes (m : List Byte) (hf : s.fatal = false) (hc : liveContext s h = some c) :
    runSteps m.length (issueAll (absorbBytes h m) s) = .next (absorbedInto h c m s) := by
  induction m generalizing s c with
  | nil => exact congrArg _ (absorbedInto_nil hc).symm
  | cons b m ih =>
    have hstep : step (issueAll (absorbBytes h (b :: m)) s) =
        .next (issueAll (absorbBytes h m) (respondOk 0 zeroPayload (writeContext h.toNat (c.absorb b) s))) :=
      (step_issueAll_cons _ _ _).trans (exec_absorb_live b hf hc)
    have hnext : liveContext (respondOk 0 zeroPayload (writeContext h.toNat (c.absorb b) s)) h = some (c.absorb b) :=
      liveContext_writeContext (liveContext_lt_length hc) (liveContext_eq_some.1 hc).2
    rw [List.length_cons, runSteps_succ _ hstep, ← absorbedInto_cons]
    exact ih hf hnext

/-- Every step answers a next state (60_exceptions R90). -/
theorem step_eq_next (s : State) : ∃ t, step s = .next t := by
  cases hin : s.inbox with
  | nil => exact ⟨s, step_of_inbox_nil hin⟩
  | cons a rest =>
    rw [step_of_inbox_cons hin]
    cases a with
    | reset => exact ⟨_, rfl⟩
    | command w =>
      cases hw : decode w with
      | ok i =>
        obtain ⟨t, ht, -⟩ := exec_eq_next i { s with inbox := rest }
        exact ⟨t, (runWord_of_decode_ok hw).trans ht⟩
      | error why => exact ⟨_, runWord_of_decode_error hw⟩

/-- A run goes on from the state its first part answers. -/
theorem runSteps_add {t : State} {n : Nat} (k : Nat) (hrun : runSteps n s = .next t) :
    runSteps (n + k) s = runSteps k t := by
  induction n generalizing s with
  | zero =>
    cases hrun
    rw [Nat.zero_add]
  | succ n ih =>
    obtain ⟨u, hu⟩ := step_eq_next s
    rw [runSteps_succ n hu] at hrun
    rw [Nat.succ_add, runSteps_succ _ hu, ih hrun]

@[simp] theorem absorbBytes_append (h : Byte) (a b : List Byte) :
    absorbBytes h (a ++ b) = absorbBytes h a ++ absorbBytes h b :=
  List.map_append

/-- Settles O45: the run of the whole, and the run of a concatenation cut after its first part. -/
theorem absorbBytesRunsByteByByte : Obligations.AbsorbBytesRunsByteByByte := by
  constructor
  · intro s h c m hf _ hc hl
    rw [runSteps_absorbBytes m hf (liveContext_eq_some.2 ⟨hc, hl⟩), ← hl]
    rfl
  · intro s h c a b hf _ hc hl
    have hlive : liveContext s h = some c := liveContext_eq_some.2 ⟨hc, hl⟩
    refine ⟨_, runSteps_absorbBytes a hf hlive, ?_⟩
    rw [absorbBytes_append, issueAll_append, List.length_append]
    exact (runSteps_add b.length (runSteps_absorbBytes (s := issueAll (absorbBytes h b) s) a hf hlive)).symm

end Sys2Proof.Machine
end

section
/-! NEW and the commands the host issues with the handle it answers (30_encoding R50). -/

namespace Sys2Proof.Machine

variable {s : State} {j : Nat}

/-- The block after NEW has taken context `j` (41_sponge R70). -/
def created (j : Nat) (s : State) : State := respondOk (handleOf j) zeroPayload (writeContext j Context.fresh s)

theorem exec_new_free (hf : s.fatal = false) (hj : freeContext s = some j) : exec .new s = .next (created j s) := by
  simp only [exec, execNew, whenServing_serving hf, withFree_some hj, created]

theorem continueWithHandle_respondOk (tail : Byte → List Instr) (h : Byte) (p : Digest) :
    continueWithHandle tail (respondOk h p s) = issueAll (tail h) (respondOk h p s) := by
  simp [continueWithHandle]

/-- With a free context the host goes on with the handle of the context that NEW took. -/
theorem newThen_free (tail : Byte → List Instr) (hf : s.fatal = false) (hj : freeContext s = some j) :
    newThen tail s = .next (issueAll (tail (handleOf j)) (created j s)) := by
  have hstep : step (giveAction (.command (encode .new)) s) = .next (created j s) :=
    (step_issueAll_cons .new [] s).trans (exec_new_free hf hj)
  simp only [newThen, hstep, created, continueWithHandle_respondOk]

theorem toNat_handleOf_free (hlen : s.ctx.length ≤ 256) (hj : freeContext s = some j) : (handleOf j).toNat = j :=
  toNat_handleOf ((freeContext_lt_length hj).trans_le hlen)

/-- The handle that NEW answers names the fresh context. -/
theorem liveContext_created (hlen : s.ctx.length ≤ 256) (hj : freeContext s = some j) :
    liveContext (created j s) (handleOf j) = some Context.fresh := by
  have hnum := toNat_handleOf_free hlen hj
  have hlt : (handleOf j).toNat < s.ctx.length := hnum.symm ▸ freeContext_lt_length hj
  have hfresh := liveContext_writeContext (s := s) (c := Context.fresh) hlt rfl
  rw [hnum] at hfresh
  exact hfresh

/-- Settles O57: NEW takes the least free context, and the ABSORBs that follow name it. -/
theorem newWithAbsorbsIntoItsNewContext : Obligations.NewWithAbsorbsIntoItsNewContext := by
  intro s j m hlen hf _ hj
  refine ⟨_, newThen_free (newWithTail m) hf hj, ?_⟩
  rw [newWithTail, runSteps_absorbBytes m (s := created j s) hf (liveContext_created hlen hj)]
  simp only [absorbedInto, toNat_handleOf_free hlen hj]
  simp [created, writeContext, Context.absorbAll, handleOf, zeroPayload]

end Sys2Proof.Machine
end

section
/-! Absorbing byte by byte and block by block (00_scope R9, 41_sponge R65, R75). -/

namespace Sys2Proof.Machine

variable (A : Lanes)

theorem xorBytes_append (k : Nat) (a b : List Byte) :
    xorBytes A k (a ++ b) = xorBytes (xorBytes A k a) (k + a.length) b := by
  induction a generalizing A k with
  | nil => rfl
  | cons x a ih =>
    rw [List.cons_append, xorBytes, ih, List.length_cons, Nat.add_right_comm, Nat.add_assoc]
    rfl

theorem xorBytes_cons (cur : Fin 136) (b : Byte) (m : List Byte) :
    xorBytes A cur.val (b :: m) = xorBytes (xorStateByte A (rateByte cur) b) (cur.val + 1) m := by
  have hlt : cur.val < 200 := by omega
  simp only [xorBytes, dif_pos hlt]
  rfl

theorem xorStateByte_zero (k : Fin 200) : xorStateByte A k 0 = A := by
  apply Vector.ext
  intro i hi
  rw [xorStateByte_getElem A k 0 i hi]
  simp

theorem xorBytes_zeros (k n : Nat) : xorBytes A k (List.replicate n 0) = A := by
  induction n generalizing k with
  | zero => rfl
  | succ n ih =>
    simp only [List.replicate_succ, xorBytes, xorStateByte_zero, dite_eq_ite, ite_self, ih]

/-- Two bytes XORed at one place are their XOR there. -/
theorem xorStateByte_same (k : Fin 200) (b d : Byte) :
    xorStateByte (xorStateByte A k b) k d = xorStateByte A k (b ^^^ d) := by
  apply Vector.ext
  intro i hi
  rw [xorStateByte_getElem _ k d i hi, xorStateByte_getElem A k b i hi, xorStateByte_getElem A k _ i hi]
  by_cases hlane : k.val / 8 = i
  · simp only [if_pos hlane, BitVec.setWidth_xor, BitVec.shiftLeft_xor_distrib, BitVec.xor_assoc]
  · simp only [if_neg hlane]

theorem absorbSeq_append (p : Lanes × Fin 136) (a b : List Byte) :
    absorbSeq p (a ++ b) = absorbSeq (absorbSeq p a) b :=
  List.foldl_append

/-- The byte that fills the block is XORed in before the permutation runs (41_sponge R65). -/
theorem absorbByte_of_eq (cur : Fin 136) (b : Byte) (hcur : cur.val = 135) :
    absorbByte A cur b = (keccakF (xorStateByte A (rateByte cur) b), 0) := by
  have heq : cur.val + 1 = Config.rate := by simp only [Config.rate]; omega
  simp only [absorbByte, dif_pos heq]

/-- Bytes that do not fill the block are XORed in from the cursor on, and no permutation runs. -/
theorem absorbSeq_of_lt (cur : Fin 136) (m : List Byte) (hm : cur.val + m.length < 136) :
    absorbSeq (A, cur) m = (xorBytes A cur.val m, ⟨cur.val + m.length, hm⟩) := by
  induction m generalizing A cur with
  | nil => rfl
  | cons b m ih =>
    have hlen : cur.val + 1 + m.length < 136 := by rw [List.length_cons] at hm; omega
    rw [absorbSeq_cons, absorbByte_of_lt A cur b (by omega), ih _ ⟨cur.val + 1, by omega⟩ hlen, xorBytes_cons]
    simp only [List.length_cons, Nat.add_assoc, Nat.add_comm]

/-- Bytes that end with the block are XORed in from the cursor on, and the permutation runs once. -/
theorem absorbSeq_of_eq (cur : Fin 136) (m : List Byte) (hm : cur.val + m.length = 136) :
    absorbSeq (A, cur) m = (keccakF (xorBytes A cur.val m), 0) := by
  induction m generalizing A cur with
  | nil => exact absurd hm (by simp only [List.length_nil]; omega)
  | cons b m ih =>
    rw [List.length_cons] at hm
    rw [absorbSeq_cons, xorBytes_cons]
    by_cases hcur : cur.val = 135
    · obtain rfl : m = [] := List.eq_nil_of_length_eq_zero (by omega)
      rw [absorbByte_of_eq A cur b hcur]
      rfl
    · rw [absorbByte_of_lt A cur b (by omega), ih _ ⟨cur.val + 1, by omega⟩ (by simp only; omega)]

end Sys2Proof.Machine
end

section
/-! The byte-wise digest is the block-wise sponge of the padded message (00_scope R9, 41_sponge R66 to R68, R77). -/

namespace Sys2Proof.Machine

variable (A : Lanes)

/-- The bytes that padding puts after a message whose last block lacks `q` bytes (41_sponge R66). -/
def padding (q : Nat) : List Byte :=
  if q = 1 then [Config.dsByte ^^^ Config.padLast]
  else Config.dsByte :: (List.replicate (q - 2) 0 ++ [Config.padLast])

theorem padMessage_eq_append (m : List Byte) : padMessage m = m ++ padding (136 - m.length % 136) := by
  simp only [padMessage, padding]
  split <;> rfl

theorem length_padding {q : Nat} (hq : 1 ≤ q) : (padding q).length = q := by
  unfold padding
  split
  · simp; omega
  · simp; omega

/-- The padding bytes XORed in from the cursor on are Pad at the cursor. -/
theorem xorBytes_padding (cur : Fin 136) : xorBytes A cur.val (padding (136 - cur.val)) = pad A cur := by
  unfold padding pad
  by_cases hcur : cur.val = 135
  · obtain rfl : cur = 135 := Fin.ext hcur
    rw [if_pos (by decide), xorBytes_cons, xorStateByte_same]
    rfl
  · have hlast : cur.val + 1 + (136 - cur.val - 2) = (135 : Fin 136).val := by
      rw [Fin.coe_ofNat_eq_mod]; omega
    rw [if_neg (by omega), xorBytes_cons, xorBytes_append, xorBytes_zeros, List.length_replicate, hlast, xorBytes_cons]
    rfl

/-- The last block: fewer than 136 bytes and their padding. -/
theorem xorBytes_padMessage_of_lt (m : List Byte) (hm : m.length < 136) :
    xorBytes A 0 (padMessage m) = pad (absorbSeq (A, 0) m).1 (absorbSeq (A, 0) m).2 := by
  rw [absorbSeq_of_lt A 0 m (by simpa using hm), padMessage_eq_append, xorBytes_append, Nat.mod_eq_of_lt hm]
  simp [← xorBytes_padding]

/-- The message padded has a block in front when the message has one. -/
theorem padMessage_append_block {a : List Byte} (m : List Byte) (ha : a.length = 136) :
    padMessage (a ++ m) = a ++ padMessage m := by
  rw [padMessage_eq_append, padMessage_eq_append, List.length_append, ha, Nat.add_mod_left, List.append_assoc]

theorem absorbBlocks_append {a : List Byte} (n : Nat) (m : List Byte) (ha : a.length = 136) :
    absorbBlocks A (n + 1) (a ++ m) = absorbBlocks (keccakF (xorBytes A 0 a)) n m := by
  simp only [absorbBlocks, Config.rate, ← ha, List.take_left, List.drop_left]

/-- From any lanes and cursor 0, by the number of full blocks of the message. -/
theorem squeeze_absorbBlocks_padMessage (m : List Byte) :
    squeeze (absorbBlocks A (m.length / 136 + 1) (padMessage m)) =
      digestOf (absorbSeq (A, 0) m).1 (absorbSeq (A, 0) m).2 := by
  induction hn : m.length / 136 generalizing A m with
  | zero =>
    have hm : m.length < 136 := by omega
    have hlen : (padMessage m).length = 136 := by
      rw [padMessage_eq_append, List.length_append, length_padding (by omega)]
      omega
    rw [digestOf, ← xorBytes_padMessage_of_lt A m hm, ← List.append_nil (padMessage m), absorbBlocks_append A 0 [] hlen,
      List.append_nil]
    rfl
  | succ n ih =>
    obtain ⟨a, r, rfl, ha⟩ : ∃ a r, m = a ++ r ∧ a.length = 136 :=
      ⟨m.take 136, m.drop 136, (List.take_append_drop 136 m).symm, List.length_take_of_le (by omega)⟩
    have hr : r.length / 136 = n := by rw [List.length_append] at hn; omega
    rw [padMessage_append_block r ha, absorbBlocks_append A (n + 1) _ ha, ih _ r hr, absorbSeq_append,
      absorbSeq_of_eq A 0 a (by simpa using ha)]
    rfl

/-- The digest after absorbing a message byte by byte into zero lanes is its block-wise SHA3-256 (41_sponge R77). -/
theorem digestOf_absorbSeq (m : List Byte) :
    digestOf (absorbSeq (zeroLanes, 0) m).1 (absorbSeq (zeroLanes, 0) m).2 = sha3 m :=
  (squeeze_absorbBlocks_padMessage zeroLanes m).symm

end Sys2Proof.Machine
end

section
/-! HASH: NEW, an ABSORB a byte, DIGEST and DROP (30_encoding R50). -/

namespace Sys2Proof.Machine

variable {s : State} {h : Byte} {c : Context} {j : Nat}

theorem exec_drop_live (hf : s.fatal = false) (hc : liveContext s h = some c) :
    exec (.drop h) s = .next (respondOk 0 zeroPayload (writeContext h.toNat Context.free s)) := by
  simp only [exec, execDrop, whenServing_serving hf, withLive_some hc]

/-- DIGEST and then DROP of a live handle answer its digest and free its context. -/
theorem runSteps_digest_drop (hf : s.fatal = false) (hc : liveContext s h = some c) :
    runSteps 2 (issueAll [.digest h, .drop h] s) =
      .next (respondOk 0 zeroPayload (writeContext h.toNat Context.free (respondOk 0 (digestOf c.lanes c.cur) s))) := by
  have hdigest : step (issueAll [.digest h, .drop h] s) =
      .next (issueAll [.drop h] (respondOk 0 (digestOf c.lanes c.cur) s)) :=
    (step_issueAll_cons _ _ _).trans (exec_digest_live hf hc)
  have hdrop : step (issueAll [.drop h] (respondOk 0 (digestOf c.lanes c.cur) s)) =
      .next (respondOk 0 zeroPayload (writeContext h.toNat Context.free (respondOk 0 (digestOf c.lanes c.cur) s))) :=
    (step_issueAll_cons _ _ _).trans (exec_drop_live (c := c) hf hc)
  rw [runSteps_succ 1 hdigest, runSteps_succ 0 hdrop, runSteps_zero]

/-- After its ABSORBs a live handle names the context that holds the bytes. -/
theorem liveContext_absorbedInto (m : List Byte) (hc : liveContext s h = some c) :
    liveContext (absorbedInto h c m s) h = some (c.absorbAll m) :=
  liveContext_writeContext (liveContext_lt_length hc) (liveContext_eq_some.1 hc).2

/-- The ABSORBs, the DIGEST and the DROP of a live handle, as one run. -/
theorem runSteps_hashTail (m : List Byte) (hf : s.fatal = false) (hc : liveContext s h = some c) :
    runSteps (m.length + 2) (issueAll (hashTail m h) s) =
      .next (respondOk 0 zeroPayload (writeContext h.toNat Context.free
        (respondOk 0 (digestOf (c.absorbAll m).lanes (c.absorbAll m).cur) (absorbedInto h c m s)))) := by
  have habsorb := runSteps_absorbBytes (s := issueAll [.digest h, .drop h] s) m hf hc
  rw [hashTail, issueAll_append, runSteps_add 2 habsorb]
  exact runSteps_digest_drop (s := absorbedInto h c m s) hf (liveContext_absorbedInto m hc)

/-- By the invariant, freeing the context an allocation takes leaves it as it was before. -/
theorem set_free_of_freeContext (hs : s.Inv) (hj : freeContext s = some j) : s.ctx.set j Context.free = s.ctx := by
  obtain ⟨-, -, hfree⟩ := hs
  obtain ⟨⟨d, hd, hl⟩, -⟩ := freeContext_eq_some.1 hj
  obtain ⟨hlt, rfl⟩ := List.getElem?_eq_some_iff.1 hd
  rw [← hfree s.ctx[j] (List.getElem_mem hlt) hl, List.set_getElem_self]

/-- Settles O53: the run digests what it absorbed, which is the message's block-wise SHA3-256, and DROP frees the context that
NEW took. -/
theorem hashAnswersSha3AndReleasesItsContext : Obligations.HashAnswersSha3AndReleasesItsContext := by
  intro s j m hs hf _ hj
  have ⟨_, hlen, _⟩ := hs
  refine ⟨_, newThen_free (hashTail m) hf hj, ?_⟩
  have hdigest : digestOf (Context.fresh.absorbAll m).lanes (Context.fresh.absorbAll m).cur = sha3 m :=
    digestOf_absorbSeq m
  rw [runSteps_hashTail m (s := created j s) hf (liveContext_created hlen hj), hdigest]
  simp only [absorbedInto, toNat_handleOf_free hlen hj]
  simp [created, writeContext, respondOk, deliver, set_free_of_freeContext hs hj, handleOf, zeroPayload]

end Sys2Proof.Machine
end

section
/-! A handle that names no live context (30_encoding R41, 60_exceptions R84), and a block whose host does nothing. -/

namespace Sys2Proof.Machine

variable {s : State}

/-- A handle at or above NUM_CTX, or of a context that is not live, names no context. -/
theorem liveContext_of_dead {h : Byte}
    (hdead : s.ctx.length ≤ h.toNat ∨ ∃ c, s.ctx[h.toNat]? = some c ∧ c.live = false) : liveContext s h = none := by
  rw [liveContext_eq_none]
  intro d hd
  obtain hlen | ⟨c, hc, hl⟩ := hdead
  · rw [List.getElem?_eq_none hlen] at hd
    cases hd
  · obtain rfl : c = d := Option.some.inj (hc.symm.trans hd)
    exact hl

/-- Each command that takes a handle checks it before its body runs. -/
theorem exec_of_dead {i : Instr} {h : Byte} (hf : s.fatal = false) (hi : i.handle? = some h)
    (hn : liveContext s h = none) : exec i s = .next (raise .badHandle s) := by
  cases i with
  | new => cases hi
  | absorb | digest | copy | drop =>
    cases hi
    exact congrArg Host.Outcome.next ((whenServing_serving hf).trans (withLive_none hn))

/-- Settles O27: the handle names no context, and the check answers before the body. -/
theorem deadHandleAnswersBadHandle : Obligations.DeadHandleAnswersBadHandle :=
  fun _ _ _ hf hi hdead => exec_of_dead hf hi (liveContext_of_dead hdead)

/-- Settles O41, by induction on the length of the run. -/
theorem idleBlockKeepsItsState : Obligations.IdleBlockKeepsItsState := by
  intro s hs n
  induction n with
  | zero => rfl
  | succ n ih => rw [runSteps_succ n (step_of_inbox_nil hs), ih]

end Sys2Proof.Machine
end

section
/-! The fields of the response to every command word (30_encoding R46, R47). -/

namespace Sys2Proof.Machine

variable {s t : State} {w : Word} {i : Instr} {r : Response}

/-- The fields of a response, by the command it answers: HANDLE and the payload are zero but for an allocation and a DIGEST
that end with OK (30_encoding R46). -/
structure FieldsFor (i : Instr) (s : State) (r : Response) : Prop where
  allocated : r.status = .ok → Allocates i → ∃ j, freeContext s = some j ∧ r.handle = handleOf j
  no_handle : ¬(r.status = .ok ∧ Allocates i) → r.handle = 0
  digested : ∀ h, r.status = .ok → i = .digest h → ∃ c, s.ctx[h.toNat]? = some c ∧ r.payload = digestOf c.lanes c.cur
  no_payload : ¬(r.status = .ok ∧ ∃ h, i = .digest h) → r.payload = zeroPayload

theorem CommandEnd.fieldsFor (hend : CommandEnd s i t) :
    ∃ r, t.responses = s.responses ++ [r] ∧ FieldsFor i s r := by
  cases hend with
  | halted | badHandle | exhausted =>
    exact ⟨_, rfl, by simp, fun _ => rfl, by simp, fun _ => rfl⟩
  | created j hf hj =>
    exact ⟨_, rfl, fun _ _ => ⟨j, hj, rfl⟩, fun hn => absurd ⟨rfl, .inl rfl⟩ hn, by simp, fun _ => rfl⟩
  | copied h c j hf hc hj =>
    exact ⟨_, rfl, fun _ _ => ⟨j, hj, rfl⟩, fun hn => absurd ⟨rfl, .inr ⟨h, rfl⟩⟩ hn, by simp, fun _ => rfl⟩
  | absorbed | dropped => exact ⟨_, rfl, by simp [Allocates], fun _ => rfl, by simp, fun _ => rfl⟩
  | digested h c hf hc =>
    refine ⟨_, rfl, by simp [Allocates], fun _ => rfl, ?_, fun hn => absurd ⟨rfl, h, rfl⟩ hn⟩
    rintro _ - ⟨⟩
    exact ⟨c, (liveContext_eq_some.1 hc).1, rfl⟩

/-- A word that spells no command is answered with an error status. -/
theorem rejectIllegal_eq_raise (why : Illegal) (s : State) : ∃ st, st ≠ .ok ∧ rejectIllegal why s = raise st s := by
  cases hf : s.fatal with
  | false => exact ⟨.illegal, by simp, rejectIllegal_serving why hf⟩
  | true => exact ⟨.halted, by simp, whenServing_fatal hf⟩

theorem fieldOp_of_decode (hw : decode w = .ok i) : fieldOp w = i.fields.op :=
  congrArg Fields.op (decode_eq_ok.1 hw)

theorem fieldH_of_decode (hw : decode w = .ok i) : fieldH w = i.fields.h :=
  congrArg Fields.h (decode_eq_ok.1 hw)

/-- The opcodes of NEW and COPY (30_encoding R42). -/
theorem allocates_iff_op : Allocates i ↔ i.fields.op = 1 ∨ i.fields.op = 4 := by
  cases i <;> simp [Allocates, Instr.fields]

/-- The opcode of DIGEST (30_encoding R42). -/
theorem digest_iff_op : (∃ h, i = .digest h) ↔ i.fields.op = 3 := by
  cases i <;> simp [Instr.fields]

/-- Where the fields stand in the response word (30_encoding R46). -/
theorem word_extract (r : Response) :
    r.word.extractLsb' 0 4 = r.status.code ∧ r.word.extractLsb' 4 4 = 0 ∧
      r.word.extractLsb' 8 8 = r.handle ∧ r.word.extractLsb' 16 16 = 0 := by
  simp only [Response.word]
  refine ⟨?_, ?_, ?_, ?_⟩ <;> ext j hj <;> simp only [BitVec.getElem_extractLsb', BitVec.getLsbD_append] <;> grind

/-- Settles O32: the response of a command by its ends, that of an illegal word, and the layout of the response word. -/
theorem responseFieldsAreFixed : Obligations.ResponseFieldsAreFixed := by
  refine ⟨fun s w rest hin => ?_, word_extract, rfl, rfl, rfl, rfl, rfl, fun st => by cases st <;> decide⟩
  rw [step_of_inbox_cons hin, runAction]
  cases hw : decode w with
  | error why =>
    obtain ⟨st, hst, hraise⟩ := rejectIllegal_eq_raise why { s with inbox := rest }
    rw [runWord_of_decode_error hw, hraise]
    exact ⟨_, _, rfl, rfl, by simp [hst], fun _ => rfl, by simp [hst], fun _ => rfl⟩
  | ok i =>
    obtain ⟨t, ht, hend⟩ := exec_eq_next i { s with inbox := rest }
    obtain ⟨r, hr, hfields⟩ := hend.fieldsFor
    rw [fieldOp_of_decode hw, ← allocates_iff_op, ← digest_iff_op]
    refine ⟨t, r, (runWord_of_decode_ok hw).trans ht, hr, fun ⟨hok, ha⟩ => hfields.allocated hok ha, hfields.no_handle,
      ?_, hfields.no_payload⟩
    rintro ⟨hok, h, rfl⟩
    rw [fieldH_of_decode hw]
    exact hfields.digested h hok rfl

end Sys2Proof.Machine
end

section
/-! Fixed words and fixed lines of the assembler (30_encoding R42, R49, R50). -/

namespace Sys2Proof.Machine

/-- Settles O2: each of the six words evaluated by the decoder. -/
theorem sampleWordsDecode : Obligations.SampleWordsDecode := by
  unfold Obligations.SampleWordsDecode
  decide

/-- Settles O56: each line read by the assembler. -/
theorem assemblerReadsEachForm : Obligations.AssemblerReadsEachForm := by
  unfold Obligations.AssemblerReadsEachForm
  decide

end Sys2Proof.Machine
end

section
/-! ROTL64 on lanes that rotation does not change, and the lanes after each step mapping, column by row (40_permutation R52,
R55 to R57, R60). -/

namespace Sys2Proof.Machine

variable (A : Lanes)

/-- A lane whose bits are all the same is unchanged by any rotation (40_permutation R55). -/
theorem rotl64_of_getLsbD_eq {v : Lane} {b : Bool} (hv : ∀ j < 64, v.getLsbD j = b) (n : Nat) : rotl64 v n = v := by
  apply BitVec.eq_of_getLsbD_eq
  intro j hj
  rw [rotationMovesBitsUp v n j hj, hv j hj, hv _ (Nat.mod_lt _ (by decide))]

@[simp] theorem zero_rotl64 (n : Nat) : rotl64 0 n = 0 :=
  rotl64_of_getLsbD_eq (b := false) (fun _ _ => BitVec.getLsbD_zero) n

@[simp] theorem allOnes_rotl64 (n : Nat) : rotl64 (BitVec.allOnes 64) n = BitVec.allOnes 64 :=
  rotl64_of_getLsbD_eq (b := true) (fun j hj => by rw [BitVec.getLsbD_allOnes, decide_eq_true hj]) n

theorem rotl64_zero (v : Lane) : rotl64 v 0 = v := by
  apply BitVec.eq_of_getLsbD_eq
  intro j hj
  exact getLsbD_rotl64_of_le v (Nat.zero_le j) hj

/-- Rotating 0x1 by fewer than 64 places wraps no set bit around. -/
theorem one_rotl64_of_lt {n : Nat} (hn : n < 64) : rotl64 0x1 n = (0x1 : Lane) <<< n := by
  have hwrap : (0x1 : Lane) >>> (64 - n) = 0#64 := by
    have hshift : 1 >>> (64 - n) = 0 := Nat.shiftRight_eq_zero 1 _ (Nat.one_lt_two_pow (by omega))
    exact BitVec.eq_of_toNat_eq hshift
  rw [rotl64, BitVec.rotateLeft_def, Nat.mod_eq_of_lt hn, hwrap, BitVec.or_zero]

@[simp] theorem laneAt_replicate (v : Lane) (x y : Nat) : laneAt (Vector.replicate 25 v) x y = v := by
  simp only [laneAt, Vector.getElem_replicate]

@[simp] theorem laneAt_zeroLanes (x y : Nat) : laneAt zeroLanes x y = 0 := laneAt_replicate 0 x y

/-- Only the column and row mod 5 count (00_scope R8). -/
theorem laneAt_congr {x x' y y' : Nat} (hx : x % 5 = x' % 5) (hy : y % 5 = y' % 5) : laneAt A x y = laneAt A x' y' := by
  simp only [laneAt, hx, hy]

theorem columnParity_mod (x : Nat) : columnParity A (x % 5) = columnParity A x := by
  simp only [columnParity, laneAt_mod_left]

theorem thetaEffect_mod (x : Nat) : thetaEffect A (x % 5) = thetaEffect A x := by
  have parity (k : Nat) : columnParity A (x % 5 + k) = columnParity A (x + k) := by
    rw [← columnParity_mod, Nat.mod_add_mod, columnParity_mod]
  simp only [thetaEffect, parity]

theorem laneAt_theta (x y : Nat) : laneAt (theta A) x y = laneAt A x y ^^^ thetaEffect A x := by
  rw [theta, laneAt_buildLanes, laneAt_mod_left, laneAt_mod_right, thetaEffect_mod]

theorem laneAt_rho {x y : Nat} (hx : x < 5) (hy : y < 5) :
    laneAt (rho A) x y = rotl64 (laneAt A x y) (rhoOffsets[x + 5 * y]'(by omega)) := by
  rw [laneAt_eq_getElem _ x y hx hy, laneAt_eq_getElem A x y hx hy, rho, Vector.getElem_ofFn]
  rfl

theorem laneAt_pi (x y : Nat) : laneAt (pi A) x y = laneAt A (x + 3 * y) x := by
  rw [pi, laneAt_buildLanes]
  exact laneAt_congr A (by omega) (Nat.mod_mod x 5)

theorem laneAt_chi (x y : Nat) :
    laneAt (chi A) x y = laneAt A x y ^^^ (~~~ laneAt A (x + 1) y &&& laneAt A (x + 2) y) := by
  rw [chi, laneAt_buildLanes, laneAt_mod_left, laneAt_mod_right,
    laneAt_congr A (Nat.mod_add_mod x 5 1) (Nat.mod_mod y 5), laneAt_congr A (Nat.mod_add_mod x 5 2) (Nat.mod_mod y 5)]

theorem laneAt_iota_zero (ir : Fin 24) : laneAt (iota A ir) 0 0 = laneAt A 0 0 ^^^ roundConstant ir := by
  simp [laneAt, iota]

theorem laneAt_iota_of_ne (ir : Fin 24) {x y : Nat} (hx : x < 5) (hy : y < 5) (hxy : ¬(x = 0 ∧ y = 0)) :
    laneAt (iota A ir) x y = laneAt A x y := by
  have hne : 0 ≠ x + 5 * y := by omega
  rw [laneAt_eq_getElem _ x y hx hy, laneAt_eq_getElem A x y hx hy, iota, Vector.getElem_set_ne _ _ hne]

end Sys2Proof.Machine
end

section
/-! The statements on the five step mappings and on their tables (40_permutation R52 to R60). -/

namespace Sys2Proof.Machine

/-- θ changes nothing where every column has one parity that rotation by one place keeps: the two parities cancel. -/
theorem theta_of_columnParity_eq {A : Lanes} {c : Lane} (hrot : rotl64 c 1 = c) (hpar : ∀ x, columnParity A x = c) :
    theta A = A := by
  apply lanes_ext
  intro x _ y _
  rw [laneAt_theta, thetaEffect, hpar, hpar, hrot, BitVec.xor_self, BitVec.xor_zero]

theorem theta_zeroLanes : theta zeroLanes = zeroLanes :=
  theta_of_columnParity_eq (zero_rotl64 1) fun x => by simp [columnParity]

theorem theta_allOnes : theta (Vector.replicate 25 (BitVec.allOnes 64)) = Vector.replicate 25 (BitVec.allOnes 64) :=
  theta_of_columnParity_eq (allOnes_rotl64 1) fun x => by simp [columnParity]

theorem theta_of_even_columns {A : Lanes} (h : ∀ x < 5, columnParity A x = 0) : theta A = A :=
  theta_of_columnParity_eq (zero_rotl64 1) fun x => columnParity_mod A x ▸ h (x % 5) (Nat.mod_lt x (by decide))

/-- Settles O9: θ lane by lane; its three fixed states each have one column parity that rotation keeps; the worked example
evaluated. -/
theorem thetaXorsColumnParities : Obligations.ThetaXorsColumnParities := by
  refine ⟨fun A x y _ _ => ?_, theta_zeroLanes, theta_allOnes, fun A => theta_of_even_columns, by decide⟩
  simp only [laneAt_theta, thetaEffect, columnParity, laneAt_mod_left]

/-- Settles O10: the generator evaluated lane by lane. -/
theorem rhoTableEqualsItsGenerator : Obligations.RhoTableEqualsItsGenerator := by
  unfold Obligations.RhoTableEqualsItsGenerator
  decide

theorem rhoOffsets_lt : ∀ i : Fin 25, rhoOffsets[i] < 64 := by decide

/-- Settles O11: ρ lane by lane; the offset of lane (0,0) is 0; a rotation leaves a lane of one bit value alone, and moves
the one bit of 0x1 up. -/
theorem rhoRotatesEachLane : Obligations.RhoRotatesEachLane := by
  refine ⟨fun A x y => laneAt_rho A, fun A => ?_, fun A x y hx hy hv => ?_, fun i => ?_⟩
  · rw [laneAt_rho A (by decide) (by decide)]
    exact rotl64_zero _
  · rw [laneAt_rho A hx hy]
    rcases hv with hv | hv
    · rw [hv, zero_rotl64]
    · rw [hv, allOnes_rotl64]
  · simp only [rho, Fin.getElem_fin, Vector.getElem_ofFn, Vector.getElem_replicate]
    exact one_rotl64_of_lt (rhoOffsets_lt i)

/-- The table of π read by its formula in linear indices. -/
theorem piSource_val : ∀ i : Fin 25, piSource[i].val = (i.val % 5 + 3 * (i.val / 5)) % 5 + 5 * (i.val % 5) := by
  decide

/-- Settles O12: π lane by lane; going on from the destination of lane (x,y) comes back to its source; the table is the
formula in linear indices. -/
theorem piPermutesLanePositions : Obligations.PiPermutesLanePositions := by
  refine ⟨fun A x y _ _ => ?_, fun A x y _ _ => ?_, fun A i => ?_, fun x _ y _ => ?_⟩
  · rw [laneAt_pi, laneAt_mod_left]
  · rw [laneAt_pi]
    exact laneAt_congr A (by omega) rfl
  · simp only [pi, buildLanes, laneAt, Fin.getElem_fin, Vector.getElem_ofFn, Nat.mod_mod, ← piSource_val i]
  · omega

/-- χ changes no state whose lanes are all the same: a lane and its complement have no bit in common. -/
theorem chi_replicate (v : Lane) : chi (Vector.replicate 25 v) = Vector.replicate 25 v := by
  have hand : ~~~ v &&& v = 0#64 := by simp
  apply lanes_ext
  intro x _ y _
  simp only [laneAt_chi, laneAt_replicate, hand, BitVec.xor_zero]

/-- Settles O13: χ lane by lane, its fixed states, and the worked example evaluated. -/
theorem chiMixesEachRow : Obligations.ChiMixesEachRow := by
  refine ⟨fun A x y _ _ => ?_, chi_replicate 0, chi_replicate (BitVec.allOnes 64), by decide⟩
  rw [laneAt_chi, laneAt_mod_left, laneAt_mod_left]

/-- Settles O14: the generator and the mask evaluated for each round. -/
theorem roundConstantsEqualTheirGenerator : Obligations.RoundConstantsEqualTheirGenerator := by
  unfold Obligations.RoundConstantsEqualTheirGenerator
  decide

theorem iota_iota (A : Lanes) (ir : Fin 24) : iota (iota A ir) ir = A := by
  apply lanes_ext
  intro x hx y hy
  by_cases hxy : x = 0 ∧ y = 0
  · obtain ⟨rfl, rfl⟩ := hxy
    rw [laneAt_iota_zero, laneAt_iota_zero, BitVec.xor_assoc, BitVec.xor_self, BitVec.xor_zero]
  · rw [laneAt_iota_of_ne _ ir hx hy hxy, laneAt_iota_of_ne A ir hx hy hxy]

theorem rho_zeroLanes : rho zeroLanes = zeroLanes := by
  apply lanes_ext
  intro x hx y hy
  rw [laneAt_rho _ hx hy, laneAt_zeroLanes, zero_rotl64]

theorem pi_replicate (v : Lane) : pi (Vector.replicate 25 v) = Vector.replicate 25 v := by
  apply lanes_ext
  intro x _ y _
  rw [laneAt_pi, laneAt_replicate, laneAt_replicate]

theorem iota_zeroLanes : iota zeroLanes 0 = zeroLanes.set 0 0x1 := by decide

/-- Only ι changes the zero state (40_permutation R60). -/
theorem round_zeroLanes (ir : Fin 24) : round zeroLanes ir = iota zeroLanes ir := by
  rw [round, theta_zeroLanes, rho_zeroLanes, zeroLanes, pi_replicate, chi_replicate]

/-- Settles O15: ι lane by lane, its two XORs cancelled, and the round of the zero state, which only ι changes. -/
theorem iotaChangesOnlyLaneZero : Obligations.IotaChangesOnlyLaneZero :=
  ⟨laneAt_iota_zero, fun A ir _ _ => laneAt_iota_of_ne A ir, iota_iota, iota_zeroLanes,
    (round_zeroLanes 0).trans iota_zeroLanes⟩

end Sys2Proof.Machine
end

section
/-! The order and the number of the rounds (40_permutation R61, R62). -/

namespace Sys2Proof.Machine

theorem rounds_append (irs js : List (Fin 24)) (A : Lanes) : rounds (irs ++ js) A = rounds js (rounds irs A) :=
  List.foldl_append

/-- The first n rounds lead along the chain to its state n. -/
theorem rounds_take_of_chain {S : Nat → Lanes} (hS : ∀ ir : Fin 24, S (ir.val + 1) = round (S ir.val) ir) {n : Nat}
    (hn : n ≤ 24) : rounds ((List.finRange 24).take n) (S 0) = S n := by
  induction n with
  | zero => rfl
  | succ n ih =>
    have hlen : n < (List.finRange 24).length := by rw [List.length_finRange]; omega
    rw [← List.take_append_getElem hlen, rounds_append, ih (by omega), List.getElem_finRange, rounds_cons, rounds_nil]
    exact (hS ⟨n, hn⟩).symm

/-- Settles O16: all 24 rounds are the first 24 of the chain. -/
theorem keccakRunsRoundsZeroToTwentyThree : Obligations.KeccakRunsRoundsZeroToTwentyThree := by
  refine ⟨fun _ _ => rfl, fun S hS => ?_⟩
  have hchain := rounds_take_of_chain hS (Nat.le_refl 24)
  rwa [List.take_of_length_le (by simp)] at hchain

end Sys2Proof.Machine
end

section
/-! DIGEST is a projection: two blocks side by side, to one of which no DIGEST is issued (41_sponge R76). -/

namespace Sys2Proof.Machine

variable {s s' t : State}

/-- The two blocks have the same contexts and FATAL; what their hosts issue and what they have answered may differ. -/
structure SameBlock (s s' : State) : Prop where
  ctx : s.ctx = s'.ctx
  fatal : s.fatal = s'.fatal

namespace SameBlock

theorem freeContext_eq (hs : SameBlock s s') : freeContext s = freeContext s' := by
  rw [freeContext, freeContext, hs.ctx]

theorem deliver (r : Response) (hs : SameBlock s s') : SameBlock (deliver r s) (deliver r s') :=
  ⟨hs.ctx, hs.fatal⟩

theorem writeContext (j : Nat) (c : Context) (hs : SameBlock s s') :
    SameBlock (writeContext j c s) (writeContext j c s') :=
  ⟨congrArg (·.set j c) hs.ctx, hs.fatal⟩

theorem resetBlock (hs : SameBlock s s') : SameBlock (resetBlock s) (resetBlock s') :=
  ⟨by simp [hs.ctx], rfl⟩

theorem whenServing {body : State → State} (hs : SameBlock s s') (hb : SameBlock (body s) (body s')) :
    SameBlock (whenServing s body) (whenServing s' body) :=
  whenServing_rel hs.fatal (hs.deliver _) hb

theorem withFree {body body' : Nat → State} (hs : SameBlock s s') (hb : ∀ j, SameBlock (body j) (body' j)) :
    SameBlock (withFree s body) (withFree s' body') :=
  withFree_rel hs.freeContext_eq ⟨hs.ctx, rfl⟩ hb

theorem checked {h : Byte} {body : State → Context → State} (hs : SameBlock s s')
    (hb : ∀ c, SameBlock (body s c) (body s' c)) :
    SameBlock (Machine.whenServing s fun s => withLive h s (body s))
      (Machine.whenServing s' fun s => withLive h s (body s)) :=
  hs.whenServing (withLive_rel (liveContext_congr (by rw [hs.ctx])) (hs.deliver _) hb)

theorem exec (i : Instr) (hs : SameBlock s s') :
    ∃ t t', exec i s = .next t ∧ exec i s' = .next t' ∧ SameBlock t t' := by
  cases i with
  | new => exact ⟨_, _, rfl, rfl, hs.whenServing <| hs.withFree fun j => (hs.writeContext j Context.fresh).deliver _⟩
  | absorb h b => exact ⟨_, _, rfl, rfl, hs.checked fun c => (hs.writeContext h.toNat (c.absorb b)).deliver _⟩
  | digest h => exact ⟨_, _, rfl, rfl, hs.checked fun c => hs.deliver _⟩
  | copy h => exact ⟨_, _, rfl, rfl, hs.checked fun c => hs.withFree fun j => (hs.writeContext j _).deliver _⟩
  | drop h => exact ⟨_, _, rfl, rfl, hs.checked fun c => (hs.writeContext h.toNat Context.free).deliver _⟩

/-- One action of the host, the same to both blocks. -/
theorem runAction (a : HostAction) (hs : SameBlock s s') :
    ∃ t t', runAction a s = .next t ∧ runAction a s' = .next t' ∧ SameBlock t t' := by
  cases a with
  | reset => exact ⟨_, _, rfl, rfl, hs.resetBlock⟩
  | command w =>
    simp only [Machine.runAction]
    cases hw : decode w with
    | ok i =>
      rw [runWord_of_decode_ok hw, runWord_of_decode_ok hw]
      exact hs.exec i
    | error why =>
      rw [runWord_of_decode_error hw, runWord_of_decode_error hw]
      exact ⟨_, _, rfl, rfl, hs.whenServing (hs.deliver _)⟩

end SameBlock

/-- The block does not touch what the host is still to issue. -/
theorem runAction_inbox {a : HostAction} (ht : runAction a s = .next t) : t.inbox = s.inbox := by
  cases a with
  | reset =>
    cases ht
    rfl
  | command w =>
    rw [runAction] at ht
    cases hw : decode w with
    | ok i => exact (commandEnd_of_exec (runWord_of_decode_ok hw ▸ ht)).inbox_eq
    | error why =>
      obtain ⟨st, -, hraise⟩ := rejectIllegal_eq_raise why s
      rw [runWord_of_decode_error hw, hraise] at ht
      cases ht
      rfl

/-- However a DIGEST ends, the block is as it was. -/
theorem CommandEnd.digest_sameBlock {h : Byte} (hend : CommandEnd s (.digest h) t) : SameBlock t s := by
  cases hend with
  | halted | badHandle | digested => exact ⟨rfl, rfl⟩
  | exhausted _ _ ha => exact absurd ha (by simp [Allocates])

theorem runAction_digest {a : HostAction} (ha : isDigest a = true) : ∃ t, runAction a s = .next t ∧ SameBlock t s := by
  cases a with
  | reset => cases ha
  | command w =>
    simp only [isDigest] at ha
    split at ha
    · next h hw =>
      obtain ⟨t, ht, hend⟩ := exec_eq_next (.digest h) s
      exact ⟨t, (runWord_of_decode_ok hw).trans ht, hend.digest_sameBlock⟩
    · cases ha

/-- By the actions the first host is to issue: on a DIGEST the second block waits, on any other action both step. -/
theorem SameBlock.runSteps_filter (as : List HostAction) (hs : SameBlock s s') (hin : s.inbox = as)
    (hin' : s'.inbox = as.filter fun a => !isDigest a) :
    ∃ t u, runSteps as.length s = .next t ∧ runSteps (as.filter fun a => !isDigest a).length s' = .next u ∧
      SameBlock t u := by
  induction as generalizing s s' with
  | nil => exact ⟨s, s', rfl, rfl, hs⟩
  | cons a rest ih =>
    cases ha : isDigest a with
    | true =>
      rw [List.filter_cons_of_neg (by simp [ha])] at hin' ⊢
      obtain ⟨t, ht, hdigest⟩ := runAction_digest (s := { s with inbox := rest }) ha
      rw [List.length_cons, runSteps_succ _ ((step_of_inbox_cons hin).trans ht)]
      exact ih ⟨hdigest.ctx.trans hs.ctx, hdigest.fatal.trans hs.fatal⟩ (runAction_inbox ht) hin'
    | false =>
      rw [List.filter_cons_of_pos (by simp [ha])] at hin' ⊢
      obtain ⟨t, t', ht, ht', hsame⟩ := SameBlock.runAction a
        (s := { s with inbox := rest }) (s' := { s' with inbox := rest.filter fun a => !isDigest a }) ⟨hs.ctx, hs.fatal⟩
      rw [List.length_cons, List.length_cons, runSteps_succ _ ((step_of_inbox_cons hin).trans ht),
        runSteps_succ _ ((step_of_inbox_cons hin').trans ht')]
      exact ih hsame (runAction_inbox ht) (runAction_inbox ht')

/-- Settles O44: the two runs start from one block, and keep the two blocks the same. -/
theorem removingDigestsKeepsTheBlock : Obligations.RemovingDigestsKeepsTheBlock := by
  intro s as
  obtain ⟨t, u, ht, hu, hsame⟩ := SameBlock.runSteps_filter (s := withHost as s)
    (s' := withHost (as.filter fun a => !isDigest a) s) as ⟨rfl, rfl⟩ rfl rfl
  exact ⟨t, u, ht, hu, hsame.ctx, hsame.fatal⟩

end Sys2Proof.Machine
end

section
/-! The pure functions of the controller: AbsorbByte, Pad and the digest byte by byte (41_sponge R65 to R68). -/

namespace Sys2Proof.Machine

/-- Settles O19: at cursor 135 the byte fills the block, and below it no permutation runs. -/
theorem absorbByteAdvancesOrPermutes : Obligations.AbsorbByteAdvancesOrPermutes := by
  refine fun A cur b => ⟨absorbByte_of_eq A cur b, fun hcur => ?_⟩
  rw [absorbByte_of_lt A cur b hcur]
  exact ⟨rfl, rfl⟩

/-- A byte after XorStateByte, as an XOR at every place. -/
theorem stateByte_xorStateByte_eq_xor (A : Lanes) (k j : Fin 200) (b : Byte) :
    stateByte (xorStateByte A k b) j = stateByte A j ^^^ (if j.val = k.val then b else 0) := by
  rw [stateByte_xorStateByte]
  by_cases hjk : j = k
  · subst hjk
    rw [if_pos rfl, if_pos rfl]
  · rw [if_neg hjk, if_neg (Fin.val_ne_of_ne hjk)]
    simp

/-- Each byte of the padded state: the marks at the cursor and at byte 135, both where the two are one byte. -/
theorem stateByte_pad (A : Lanes) (cur : Fin 136) (k : Fin 200) :
    stateByte (pad A cur) k =
      stateByte A k ^^^ (if k.val = cur.val then Config.dsByte else 0) ^^^ (if k.val = 135 then Config.padLast else 0) := by
  rw [pad, stateByte_xorStateByte_eq_xor, stateByte_xorStateByte_eq_xor]
  rfl

/-- Settles O20, by the place of the byte: the last of the rate, the cursor, or another. -/
theorem padMarksCursorAndLastRateByte : Obligations.PadMarksCursorAndLastRateByte := by
  intro A cur k
  rw [stateByte_pad]
  by_cases hlast : k.val = 135
  · by_cases hcur : cur.val = 135
    · rw [if_pos (hlast.trans hcur.symm), if_pos hlast, if_pos hlast, if_pos hcur, BitVec.xor_assoc]
      rfl
    · rw [if_neg (by omega), if_pos hlast, if_pos hlast, if_neg hcur]
      simp
  · rw [if_neg hlast, if_neg hlast]
    split <;> simp

/-- Settles O21: the squeezed bytes are bytes of the state, each read in its lane. -/
theorem digestBytesComeFromLanesZeroToThree : Obligations.DigestBytesComeFromLanesZeroToThree := by
  intro A cur j i hj hi
  rw [digestOf, squeeze_getElem]
  exact ⟨rfl, getLsbD_stateByte _ _ hi⟩

end Sys2Proof.Machine
end

section
/-! The host's side: the hexadecimal form of a digest and the check of the host's data (41_sponge R80, R81). -/

namespace Sys2Proof.Machine

/-- A list that holds two elements for each element of another, at even and at odd places. -/
theorem getElem?_flatMap_pair {α β : Type} (f g : α → β) (l : List α) (j : Nat) :
    (l.flatMap fun a => [f a, g a])[2 * j]? = l[j]?.map f ∧
      (l.flatMap fun a => [f a, g a])[2 * j + 1]? = l[j]?.map g := by
  induction l generalizing j with
  | nil => exact ⟨rfl, rfl⟩
  | cons a l ih =>
    cases j with
    | zero => exact ⟨rfl, rfl⟩
    | succ j => exact ih j

/-- The digits are sixteen, so no default is read. -/
theorem hexDigit_eq_getD {n : Nat} (hn : n < 16) (c : Char) : hexDigit n = "0123456789abcdef".toList.getD n c := by
  have hlen : n < "0123456789abcdef".toList.length := hn
  rw [hexDigit, List.getD_eq_getElem _ _ hlen, List.getD_eq_getElem _ _ hlen]

/-- Settles O55: two digits a byte, each of a number below sixteen. -/
theorem hexFormHasTwoDigitsPerByte : Obligations.HexFormHasTwoDigitsPerByte := by
  intro d
  constructor
  · simp [hexDigest, List.length_flatMap]
  · intro j hj
    have hbyte : d.toList[j]? = some d[j] := by simp [hj]
    have hlt : d[j].toNat < 256 := d[j].isLt
    obtain ⟨heven, hodd⟩ := getElem?_flatMap_pair (fun b : Byte => hexDigit (b.toNat / 16))
      (fun b => hexDigit (b.toNat % 16)) d.toList j
    rw [← hexDigit_eq_getD (by omega), ← hexDigit_eq_getD (by omega), hexDigest, heven, hodd, hbyte]
    exact ⟨rfl, rfl⟩

theorem checkBytes_of_byte {data : List Nat} (hd : ∀ v ∈ data, v < 256) :
    checkBytes data = some (data.map (BitVec.ofNat 8)) :=
  if_pos (by simpa using hd)

theorem checkBytes_of_not_byte {data : List Nat} (hd : ∃ v ∈ data, 256 ≤ v) : checkBytes data = none :=
  if_neg (by simpa using hd)

/-- Settles O54: the check answers none for the whole of the data, or a byte for each element. -/
theorem nonByteDataIssuesNoCommand : Obligations.NonByteDataIssuesNoCommand := by
  refine fun h data => ⟨fun hd => ?_, fun hd => ⟨absorbBytes h (data.map (BitVec.ofNat 8)), ?_, ?_, fun k v hk => ?_⟩⟩
  · rw [absorbChecked, checkBytes_of_not_byte hd, Option.map_none]
  · rw [absorbChecked, checkBytes_of_byte hd, Option.map_some]
  · simp [absorbBytes]
  · have hv : v < 256 := hd v (List.mem_of_getElem? hk)
    exact ⟨BitVec.ofNat 8 v, by simp [absorbBytes, hk], by simpa using hv⟩

end Sys2Proof.Machine
end

section
/-! The state each command leaves when it completes (41_sponge R70 to R74). -/

namespace Sys2Proof.Machine

variable {s : State}

/-- The least free context, as the rule describes it (41_sponge R70). -/
theorem freeContext_of_least {j : Nat} {c : Context} (hc : s.ctx[j]? = some c) (hl : c.live = false)
    (hleast : ∀ (k : Nat) (d : Context), k < j → s.ctx[k]? = some d → d.live = true) : freeContext s = some j :=
  freeContext_eq_some.2 ⟨⟨c, hc, hl⟩, fun k hk d => hleast k d hk⟩

/-- Settles O22: the allocation finds the least free context. -/
theorem newAllocatesLeastFreeContext : Obligations.NewAllocatesLeastFreeContext :=
  fun _ _ _ hf hc hl hleast => exec_new_free hf (freeContext_of_least hc hl hleast)

/-- Settles O23: the handle names its context, whose LIVE stays. -/
theorem absorbWritesItsContext : Obligations.AbsorbWritesItsContext := by
  intro s h b c hf hc hl
  rw [exec_absorb_live b hf (liveContext_eq_some.2 ⟨hc, hl⟩), ← hl]
  rfl

/-- Settles O24: the answer is the only change. -/
theorem digestAnswersAndWritesNothing : Obligations.DigestAnswersAndWritesNothing :=
  fun _ _ _ hf hc hl => exec_digest_live hf (liveContext_eq_some.2 ⟨hc, hl⟩)

/-- Settles O25: the context allocated is free, so it is not the source, and it becomes equal to the source. -/
theorem copyDuplicatesIntoLeastFreeContext : Obligations.CopyDuplicatesIntoLeastFreeContext := by
  intro s h c j d hf hc hl hd hfree hleast
  have hj := freeContext_of_least hd hfree hleast
  refine ⟨freeContext_ne_of_live hj hc hl, ?_⟩
  rw [exec_copy_live hf (liveContext_eq_some.2 ⟨hc, hl⟩) hj, ← hl]
  rfl

/-- Settles O26: the context written is the free one. -/
theorem dropFreesAndZeroesItsContext : Obligations.DropFreesAndZeroesItsContext :=
  fun _ _ _ hf hc hl => exec_drop_live hf (liveContext_eq_some.2 ⟨hc, hl⟩)

/-- Settles O40, by induction on the length of the run. -/
theorem everyRunAnswersNextState : Obligations.EveryRunAnswersNextState := by
  refine fun s n => ⟨step_eq_next s, ?_⟩
  induction n generalizing s with
  | zero => exact ⟨s, rfl⟩
  | succ n ih =>
    obtain ⟨t, ht⟩ := step_eq_next s
    rw [runSteps_succ n ht]
    exact ih t

end Sys2Proof.Machine
end

section
/-! A block with no live context (70_reset_and_hazards R95). -/

namespace Sys2Proof.Machine

/-- Settles O51: no handle names a context, and the least free context is the first. -/
theorem bootNeedsNewAndGetsHandleZero : Obligations.BootNeedsNewAndGetsHandleZero := by
  refine ⟨fun s hf hdead => ⟨fun i h hi => ?_, fun hne => ?_⟩, fun n hn => ⟨rfl, ?_, ?_⟩, rfl, numCtx_bounds.1⟩
  · exact exec_of_dead hf hi (liveContext_eq_none.2 fun c hc => hdead c (List.mem_of_getElem? hc))
  · have hpos : 0 < s.ctx.length := List.length_pos_iff.2 hne
    exact exec_new_free hf (freeContext_of_least (List.getElem?_eq_getElem hpos) (hdead _ (List.getElem_mem hpos))
      fun k _ hk => absurd hk (Nat.not_lt_zero k))
  · intro c hc
    rw [List.eq_of_mem_replicate hc, free_live]
  · exact List.ne_nil_of_length_pos (by rwa [resetWith_ctx, List.length_replicate])

end Sys2Proof.Machine
end

section
/-! A handle is dead from its DROP until an allocation takes its number again (41_sponge R70, R73, R74). -/

namespace Sys2Proof.Machine

variable {s t : State} {h : Byte} {i : Instr}

theorem liveContext_of_liveAt (hd : liveAt s h = false) : liveContext s h = none := by
  rwa [liveAt_eq_isSome, Option.isSome_eq_false_iff, Option.isNone_iff_eq_none] at hd

/-- The LIVE bit a handle reads depends on the contexts only. -/
theorem liveAt_congr (hctx : t.ctx[h.toNat]? = s.ctx[h.toNat]?) : liveAt t h = liveAt s h := by
  rw [liveAt_eq_isSome, liveAt_eq_isSome, liveContext_congr hctx]

/-- A free context bounds the number an allocation takes. -/
theorem exists_freeContext_le {n : Nat} {c : Context} (hc : s.ctx[n]? = some c) (hl : c.live = false) :
    ∃ j, freeContext s = some j ∧ j ≤ n := by
  cases hj : freeContext s with
  | none => exact absurd (freeContext_eq_none.1 hj c (List.mem_of_getElem? hc)) (by simp [hl])
  | some j =>
    refine ⟨j, rfl, Nat.le_of_not_lt fun hlt => ?_⟩
    exact absurd ((freeContext_eq_some.1 hj).2 n hlt c hc) (by simp [hl])

/-- The command is an allocation that passes its checks on this block and takes context `h` (60_exceptions R84). -/
def Takes (i : Instr) (h : Byte) (s : State) : Prop :=
  s.fatal = false ∧ (i = .new ∨ ∃ k c, i = .copy k ∧ liveContext s k = some c) ∧ freeContext s = some h.toNat

theorem allocatesNext_iff {w : Word} {rest : List HostAction} (hin : s.inbox = .command w :: rest)
    (hw : decode w = .ok i) : allocatesNext h s = true ↔ Takes i h s := by
  cases i with
  | new | absorb | digest | drop => simp [Takes, allocatesNext, hin, hw]
  | copy k => simp [Takes, allocatesNext, hin, hw, Option.isSome_iff_exists, and_assoc]

/-- The host's next action allocates only when it issues a word that decodes. -/
theorem exists_decode_of_allocatesNext (ha : allocatesNext h s = true) :
    ∃ w rest i, s.inbox = .command w :: rest ∧ decode w = .ok i := by
  unfold allocatesNext at ha
  split at ha
  · next w rest hin =>
    cases hw : decode w with
    | ok i => exact ⟨w, rest, i, hin, hw⟩
    | error why => simp [hw] at ha
  · cases ha

/-- A command that does not take context `h` leaves it dead: it changes no other context than the one it allocates or a
live one. -/
theorem CommandEnd.keeps_dead (hend : CommandEnd s i t) (hd : liveAt s h = false) (hna : ¬Takes i h s) :
    liveAt t h = false := by
  have hother {j : Nat} {c : Context} (hj : j ≠ h.toNat) : (s.ctx.set j c)[h.toNat]? = s.ctx[h.toNat]? :=
    List.getElem?_set_ne hj
  have hlive {k : Byte} {c : Context} (hc : liveContext s k = some c) : k.toNat ≠ h.toNat := by
    intro heq
    obtain rfl : k = h := BitVec.eq_of_toNat_eq heq
    rw [liveContext_of_liveAt hd] at hc
    cases hc
  rw [← hd]
  cases hend with
  | halted | badHandle | exhausted | digested => rfl
  | created j hf hj => exact liveAt_congr (hother fun heq => hna ⟨hf, .inl rfl, heq ▸ hj⟩)
  | absorbed k b c hf hc => exact liveAt_congr (hother (hlive hc))
  | copied k c j hf hc hj => exact liveAt_congr (hother fun heq => hna ⟨hf, .inr ⟨k, c, rfl, hc⟩, heq ▸ hj⟩)
  | dropped k c hf hc => exact liveAt_congr (hother (hlive hc))

/-- A step that is no allocation of context `h` leaves it dead. -/
theorem step_keeps_dead (hd : liveAt s h = false) (hna : allocatesNext h s = false) (hstep : step s = .next t) :
    liveAt t h = false := by
  cases hin : s.inbox with
  | nil =>
    rw [step_of_inbox_nil hin] at hstep
    cases hstep
    exact hd
  | cons a rest =>
    rw [step_of_inbox_cons hin] at hstep
    cases a with
    | reset =>
      cases hstep
      refine liveAt_eq_false.2 fun c hc => ?_
      rw [List.eq_of_mem_replicate (List.mem_of_getElem? hc), free_live]
    | command w =>
      rw [runAction] at hstep
      cases hw : decode w with
      | ok i =>
        rw [runWord_of_decode_ok hw] at hstep
        refine (commandEnd_of_exec hstep).keeps_dead hd fun htakes => ?_
        exact absurd ((allocatesNext_iff hin hw).2 htakes) (by simp [hna])
      | error why =>
        rw [runWord_of_decode_error hw] at hstep
        cases hstep
        rw [← hd]
        exact liveAt_congr (by rw [rejectIllegal_ctx])

/-- While FATAL is 1 every command answers HALTED (60_exceptions R87). -/
theorem exec_of_fatal (i : Instr) (hf : s.fatal = true) : exec i s = .next (raise .halted s) := by
  cases i <;> exact congrArg Host.Outcome.next (whenServing_fatal hf)

/-- A command that names a dead handle, on any block. -/
theorem exec_of_not_liveAt (hi : i.handle? = some h) (hd : liveAt s h = false) :
    exec i s = .next (raise (if s.fatal then .halted else .badHandle) s) := by
  cases hf : s.fatal with
  | false => exact exec_of_dead hf hi (liveContext_of_liveAt hd)
  | true => exact exec_of_fatal i hf

/-- A run with no step that takes context `h` leaves it dead. -/
theorem runSteps_keeps_dead {n : Nat} (hd : liveAt s h = false)
    (hna : ∀ (k : Nat) (u : State), k < n → runSteps k s = .next u → allocatesNext h u = false) :
    ∃ t, runSteps n s = .next t ∧ liveAt t h = false := by
  induction n generalizing s with
  | zero => exact ⟨s, rfl, hd⟩
  | succ n ih =>
    obtain ⟨t, ht⟩ := step_eq_next s
    have hdt : liveAt t h = false := step_keeps_dead hd (hna 0 s n.succ_pos rfl) ht
    rw [runSteps_succ n ht]
    exact ih hdt fun k u hk hu => hna (k + 1) u (Nat.succ_lt_succ hk) ((runSteps_succ k ht).trans hu)

/-- The context written by the allocation that takes it is live. -/
theorem liveAt_writeContext {c : Context} (hlt : h.toNat < s.ctx.length) :
    liveAt (writeContext h.toNat c s) h = c.live := by
  simp [liveAt, hlt]

theorem step_of_allocatesNext (ha : allocatesNext h s = true) : ∃ t, step s = .next t ∧ liveAt t h = true := by
  obtain ⟨w, rest, i, hin, hw⟩ := exists_decode_of_allocatesNext ha
  obtain ⟨hf, hi, hj⟩ := (allocatesNext_iff hin hw).1 ha
  have hlt := freeContext_lt_length hj
  rw [stepRunsTheDecodedCommand s w rest i hin hw]
  obtain rfl | ⟨k, c, rfl, hc⟩ := hi
  · exact ⟨_, exec_new_free (s := { s with inbox := rest }) hf hj, liveAt_writeContext hlt⟩
  · exact ⟨_, exec_copy_live (s := { s with inbox := rest }) hf hc hj,
      (liveAt_writeContext hlt).trans (liveContext_eq_some.1 hc).2⟩

/-- After DROP the handle is dead, and its context is free for an allocation. -/
theorem exec_drop_dead {c : Context} (hf : s.fatal = false) (hc : liveContext s h = some c) :
    ∃ t, exec (.drop h) s = .next t ∧ liveAt t h = false ∧ t.fatal = false ∧
      ∃ j, freeContext t = some j ∧ j ≤ h.toNat := by
  have hlt := liveContext_lt_length hc
  exact ⟨_, exec_drop_live hf hc, liveAt_writeContext hlt, hf,
    exists_freeContext_le (List.getElem?_set_self hlt) free_live⟩

/-- Settles O50: DROP, the run in which no step takes the number, and the step that takes it. -/
theorem droppedHandleIsDeadUntilReallocated : Obligations.DroppedHandleIsDeadUntilReallocated := by
  refine ⟨fun s h c hf hc hl => exec_drop_dead hf (liveContext_eq_some.2 ⟨hc, hl⟩), fun n s h hd hna => ?_,
    fun s h => step_of_allocatesNext⟩
  obtain ⟨t, ht, hdt⟩ := runSteps_keeps_dead hd hna
  exact ⟨t, ht, hdt, fun i hi => exec_of_not_liveAt hi hdt⟩

end Sys2Proof.Machine
end

section
/-! How many permutations absorbing runs, beside the machine: by the cursor, and block by block (41_sponge R78, R79). -/

namespace Sys2Proof.Machine

variable (A : Lanes)

/-- The cursor after AbsorbByte (41_sponge R65). -/
theorem absorbByte_cur_val (cur : Fin 136) (b : Byte) : (absorbByte A cur b).2.val = (cur.val + 1) % 136 := by
  by_cases hcur : cur.val = 135
  · rw [absorbByte_of_eq A cur b hcur, hcur]
    rfl
  · rw [absorbByte_of_lt A cur b (by omega), Nat.mod_eq_of_lt (by omega)]

/-- The count of the first byte, and that of the others from the cursor it leaves. -/
theorem permutationsAbsorbing_cons (cur : Fin 136) (b : Byte) (m : List Byte) :
    permutationsAbsorbing cur.val (b :: m) =
      (if cur.val = 135 then 1 else 0) + permutationsAbsorbing (absorbByte A cur b).2.val m := by
  by_cases hcur : cur.val = 135
  · rw [absorbByte_of_eq A cur b hcur, permutationsAbsorbing, if_pos hcur, if_pos hcur]
    rfl
  · rw [absorbByte_of_lt A cur b (by omega), permutationsAbsorbing, if_neg hcur, if_neg hcur, Nat.zero_add]

theorem absorbSeq_cur_val (cur : Fin 136) (m : List Byte) :
    (absorbSeq (A, cur) m).2.val = (cur.val + m.length) % 136 := by
  induction m generalizing A cur with
  | nil => exact (Nat.mod_eq_of_lt cur.isLt).symm
  | cons b m ih =>
    rw [absorbSeq_cons, ih, absorbByte_cur_val, List.length_cons, Nat.mod_add_mod, Nat.add_right_comm, Nat.add_assoc]

theorem permutationsAbsorbing_eq (cur : Fin 136) (m : List Byte) :
    permutationsAbsorbing cur.val m = (cur.val + m.length) / 136 := by
  induction m generalizing cur with
  | nil => exact (Nat.div_eq_of_lt cur.isLt).symm
  | cons b m ih =>
    rw [permutationsAbsorbing_cons zeroLanes, ih, absorbByte_cur_val, List.length_cons]
    split <;> omega

theorem permutationsAbsorbing_append (cur : Fin 136) (a b : List Byte) :
    permutationsAbsorbing cur.val (a ++ b) =
      permutationsAbsorbing cur.val a + permutationsAbsorbing (absorbSeq (A, cur) a).2.val b := by
  induction a generalizing A cur with
  | nil => exact (Nat.zero_add _).symm
  | cons x a ih =>
    rw [List.cons_append, permutationsAbsorbing_cons A, permutationsAbsorbing_cons A, ih (absorbByte A cur x).1,
      absorbSeq_cons, Nat.add_assoc]

/-- One byte counts a permutation exactly when AbsorbByte runs one. -/
theorem permutationsAbsorbing_singleton (cur : Fin 136) (b : Byte) :
    (permutationsAbsorbing cur.val [b] = 1 ∧ (absorbByte A cur b).1 = keccakF (xorStateByte A (rateByte cur) b)) ∨
      (permutationsAbsorbing cur.val [b] = 0 ∧ (absorbByte A cur b).1 = xorStateByte A (rateByte cur) b) := by
  rw [permutationsAbsorbing_cons A]
  by_cases hcur : cur.val = 135
  · exact .inl ⟨by rw [if_pos hcur]; rfl, by rw [absorbByte_of_eq A cur b hcur]⟩
  · exact .inr ⟨by rw [if_neg hcur]; rfl, by rw [absorbByte_of_lt A cur b (by omega)]⟩

/-- From cursor 0 the full blocks in front of a message are absorbed a block at a time. -/
theorem absorbSeq_blocks (k : Nat) (m : List Byte) (hm : 136 * k ≤ m.length) :
    absorbSeq (A, 0) m = absorbSeq (absorbBlocks A k m, 0) (m.drop (136 * k)) := by
  induction k generalizing A m with
  | zero => rfl
  | succ k ih =>
    obtain ⟨a, r, rfl, ha⟩ : ∃ a r, m = a ++ r ∧ a.length = 136 :=
      ⟨m.take 136, m.drop 136, (List.take_append_drop 136 m).symm, List.length_take_of_le (by omega)⟩
    have hr : 136 * k ≤ r.length := by rw [List.length_append] at hm; omega
    have hdrop : (a ++ r).drop (136 * (k + 1)) = r.drop (136 * k) := by
      rw [Nat.mul_succ, Nat.add_comm, ← List.drop_drop, List.drop_left' ha]
    rw [absorbSeq_append, absorbSeq_of_eq A 0 a (by simpa using ha), absorbBlocks_append A k r ha, hdrop]
    exact ih _ r hr

/-- The bytes left over after the full blocks are XORed in, and no permutation runs on them. -/
theorem absorbSeq_eq_xorBytes (m : List Byte) :
    (absorbSeq (A, 0) m).1 = xorBytes (absorbBlocks A (m.length / 136) m) 0 (m.drop (136 * (m.length / 136))) := by
  have hrest : (0 : Fin 136).val + (m.drop (136 * (m.length / 136))).length < 136 := by
    rw [List.length_drop, Fin.val_zero]
    omega
  rw [absorbSeq_blocks A (m.length / 136) m (by omega), absorbSeq_of_lt _ 0 _ hrest]
  rfl

/-- A message of whole blocks. -/
theorem absorbSeq_of_whole_blocks {k : Nat} (m : List Byte) (hm : m.length = 136 * k) :
    absorbSeq (A, 0) m = (absorbBlocks A k m, 0) := by
  rw [absorbSeq_blocks A k m (by omega), List.drop_of_length_le (by omega), absorbSeq_nil]

end Sys2Proof.Machine
end

section
/-! The count of the steps of a run (70_reset_and_hazards R97). -/

namespace Sys2Proof.Machine

variable {s t : State} {h : Byte} {c : Context} {i : Instr}

/-- A command on a serving block, whose handle is live and whose allocation finds a free context, passes every check
(60_exceptions R84). -/
theorem checkWord_eq_ok {w : Word} (hw : decode w = .ok i) (hf : s.fatal = false)
    (hlive : ∀ h, i.handle? = some h → liveAt s h = true) (hfree : Allocates i → freeContext s ≠ none) :
    checkWord s w = .ok := by
  have hrow : opcodeRows.any (rowMatches w) = true := List.any_eq_true.2 (exists_decode_ok_iff_row.1 ⟨i, hw⟩)
  have hall : Allocates i → s.ctx.all (·.live) = false := fun ha => by
    simpa [freeContext_eq_none] using hfree ha
  simp only [checkWord, hf, hrow, fieldOp_of_decode hw, fieldH_of_decode hw]
  cases i with
  | new => simp [Instr.fields, hall (.inl rfl)]
  | absorb h b => simp [Instr.fields, hlive h rfl]
  | digest h => simp [Instr.fields, hlive h rfl]
  | copy h => simp [Instr.fields, hlive h rfl, hall (.inr ⟨h, rfl⟩)]
  | drop h => simp [Instr.fields, hlive h rfl]

/-- A step on a command that ends with OK counts what its body runs. -/
theorem permutationsNext_issueAll_cons (is : List Instr) (hok : checkWord s (encode i) = .ok) :
    permutationsNext (issueAll (i :: is) s) = permutationsOf i s := by
  have hok' : checkWord (issueAll (i :: is) s) (encode i) = .ok := hok
  rw [permutationsNext_command (s := issueAll (i :: is) s) rfl]
  simp only [permutationsRun, decode_encode, hok', if_true]
  rfl

/-- A run that begins with a command that names a live handle and allocates nothing. -/
theorem permutationsDuring_succ_of_live {is : List Instr} (n : Nat) (hi : i.handle? = some h) (ha : ¬Allocates i)
    (hf : s.fatal = false) (hc : liveContext s h = some c) (ht : exec i (issueAll is s) = .next t) :
    permutationsDuring (n + 1) (issueAll (i :: is) s) = permutationsOf i s + permutationsDuring n t := by
  have hlive : ∀ k, i.handle? = some k → liveAt s k = true := by
    intro k hk
    obtain rfl : h = k := Option.some.inj (hi.symm.trans hk)
    rw [liveAt_eq_isSome, hc, Option.isSome_some]
  have hok : checkWord s (encode i) = .ok := checkWord_eq_ok (decode_encode i) hf hlive fun hal => absurd hal ha
  rw [permutationsDuring_succ n ((step_issueAll_cons i is s).trans ht), permutationsNext_issueAll_cons is hok]

theorem cursorAt_of_live (hc : liveContext s h = some c) : cursorAt s h = c.cur.val := by
  simp only [cursorAt, (liveContext_eq_some.1 hc).1]

/-- The count of a run goes on from the state its first part answers. -/
theorem permutationsDuring_add {n : Nat} (k : Nat) (hrun : runSteps n s = .next t) :
    permutationsDuring (n + k) s = permutationsDuring n s + permutationsDuring k t := by
  induction n generalizing s with
  | zero =>
    cases hrun
    rw [Nat.zero_add, permutationsDuring_zero, Nat.zero_add]
  | succ n ih =>
    obtain ⟨u, hu⟩ := step_eq_next s
    rw [runSteps_succ n hu] at hrun
    rw [Nat.succ_add, permutationsDuring_succ _ hu, permutationsDuring_succ _ hu, ih hrun, Nat.add_assoc]

/-- The steps of ABSORB.BYTES count what absorbing the bytes counts, whatever the host issues afterwards. -/
theorem permutationsDuring_absorbBytes (m : List Byte) (hf : s.fatal = false) (hc : liveContext s h = some c) :
    permutationsDuring m.length (issueAll (absorbBytes h m) s) = permutationsAbsorbing c.cur.val m := by
  induction m generalizing s c with
  | nil => rfl
  | cons b m ih =>
    have hexec := exec_absorb_live (s := issueAll (absorbBytes h m) s) b hf hc
    have hnext : liveContext (respondOk 0 zeroPayload (writeContext h.toNat (c.absorb b) s)) h = some (c.absorb b) :=
      liveContext_writeContext (liveContext_lt_length hc) (liveContext_eq_some.1 hc).2
    rw [List.length_cons, absorbBytes_cons, permutationsDuring_succ_of_live _ rfl (by simp [Allocates]) hf hc hexec,
      permutationsOf, cursorAt_of_live hc, permutationsAbsorbing_cons c.lanes, ← absorb_cur]
    exact congrArg _ (ih (s := respondOk 0 zeroPayload (writeContext h.toNat (c.absorb b) s)) hf hnext)

/-- Settles O46: the two formulas and the blocks from the lemmas on the count, and the run from its steps. -/
theorem absorbingCountsPermutations : Obligations.AbsorbingCountsPermutations := by
  refine ⟨fun A cur m => ⟨permutationsAbsorbing_eq cur m, absorbSeq_cur_val A cur m⟩,
    fun m k hm => ⟨absorbSeq_of_whole_blocks zeroLanes m hm, ?_⟩, permutationsAbsorbing_singleton,
    permutationsAbsorbing_append, fun s h c m hf _ hc hl => ?_, absorbSeq_eq_xorBytes⟩
  · have hcount : permutationsAbsorbing 0 m = (0 + m.length) / 136 := permutationsAbsorbing_eq 0 m
    omega
  · exact permutationsDuring_absorbBytes m hf (liveContext_eq_some.2 ⟨hc, hl⟩)

/-- NEW counts no permutation, whatever its status. -/
theorem permutationsRun_new (s : State) : permutationsRun (encode .new) s = 0 := by
  simp only [permutationsRun, decode_encode, permutationsOf, ite_self]

/-- DIGEST and then DROP of a live handle count one permutation. -/
theorem permutationsDuring_digest_drop (hf : s.fatal = false) (hc : liveContext s h = some c) :
    permutationsDuring 2 (issueAll [.digest h, .drop h] s) = 1 := by
  have hdigest := exec_digest_live (s := issueAll [.drop h] s) hf hc
  have hdrop := exec_drop_live (s := respondOk 0 (digestOf c.lanes c.cur) s) (c := c) hf hc
  rw [permutationsDuring_succ_of_live 1 rfl (by simp [Allocates]) hf hc hdigest]
  exact congrArg (1 + ·) (permutationsDuring_succ_of_live (s := respondOk 0 (digestOf c.lanes c.cur) s) (is := []) 0 rfl
    (by simp [Allocates]) hf hc hdrop)

/-- The steps of HASH after its NEW. -/
theorem permutationsDuring_hashTail (m : List Byte) (hf : s.fatal = false) (hc : liveContext s h = some c) :
    permutationsDuring (m.length + 2) (issueAll (hashTail m h) s) = permutationsAbsorbing c.cur.val m + 1 := by
  have habsorb := runSteps_absorbBytes (s := issueAll [.digest h, .drop h] s) m hf hc
  rw [hashTail, issueAll_append, permutationsDuring_add 2 habsorb,
    permutationsDuring_absorbBytes (s := issueAll [.digest h, .drop h] s) m hf hc]
  exact congrArg _ (permutationsDuring_digest_drop (s := absorbedInto h c m s) hf (liveContext_absorbedInto m hc))

/-- Settles O58: the bytes are absorbed from cursor 0, and DIGEST counts one more. -/
theorem hashCountsItsBlocksAndOneMore : Obligations.HashCountsItsBlocksAndOneMore := by
  intro s j m hlen hf _ hj
  refine ⟨_, newThen_free (hashTail m) hf hj, ?_, ?_⟩
  · rw [permutationsNext_command (giveAction_inbox _ _), permutationsRun_new]
  · rw [permutationsDuring_hashTail m (s := created j s) hf (liveContext_created hlen hj), permutationsAbsorbing_eq,
      fresh_cur, Fin.val_zero, Nat.zero_add]

end Sys2Proof.Machine
end

section
/-! While FATAL is 1 every command word answers HALTED, and only reset ends that (60_exceptions R87). -/

namespace Sys2Proof.Machine

variable {s : State}

theorem rejectIllegal_fatal (why : Illegal) (hf : s.fatal = true) : rejectIllegal why s = raise .halted s :=
  whenServing_fatal hf

/-- Check 1 stands before every other, so it does not matter whether the word spells a command. -/
theorem runWord_of_fatal (w : Word) (hf : s.fatal = true) : runWord w s = .next (raise .halted s) := by
  cases hw : decode w with
  | ok i => rw [runWord_of_decode_ok hw, exec_of_fatal i hf]
  | error why => rw [runWord_of_decode_error hw, rejectIllegal_fatal why hf]

theorem step_command_of_fatal {w : Word} {rest : List HostAction} (hf : s.fatal = true)
    (hin : s.inbox = .command w :: rest) : step s = .next (raise .halted { s with inbox := rest }) := by
  rw [step_of_inbox_cons hin, runAction]
  exact runWord_of_fatal (s := { s with inbox := rest }) w hf

/-- Settles O29: the step runs the word, and check 1 answers. -/
theorem fatalBlockAnswersHalted : Obligations.FatalBlockAnswersHalted :=
  fun _ _ _ => step_command_of_fatal

/-- A run of a faulted block whose host issues no reset: one HALTED for each command, and nothing once the host is done. -/
theorem runSteps_of_fatal (n : Nat) (hf : s.fatal = true) (hreset : HostAction.reset ∉ s.inbox) :
    ∃ t, runSteps n s = .next t ∧ t.fatal = true ∧ t.ctx = s.ctx ∧
      t.responses = s.responses ++
        List.replicate (min n s.inbox.length) { status := .halted, handle := 0, payload := zeroPayload } := by
  induction n generalizing s with
  | zero => exact ⟨s, rfl, hf, rfl, by simp⟩
  | succ n ih =>
    cases hin : s.inbox with
    | nil => exact ⟨s, idleBlockKeepsItsState s hin (n + 1), hf, rfl, by simp⟩
    | cons a rest =>
      rw [hin, List.mem_cons, not_or] at hreset
      obtain ⟨ha, hrest⟩ := hreset
      cases a with
      | reset => exact absurd rfl ha
      | command w =>
        obtain ⟨t, hrun, hft, hctx, hresp⟩ := ih (s := raise .halted { s with inbox := rest }) hf hrest
        refine ⟨t, (runSteps_succ n (step_command_of_fatal hf hin)).trans hrun, hft, hctx, ?_⟩
        rw [hresp, List.length_cons, Nat.succ_min_succ, List.replicate_succ, raise_responses, List.append_assoc]
        rfl

theorem step_reset {rest : List HostAction} (hin : s.inbox = .reset :: rest) :
    step s = .next (resetBlock { s with inbox := rest }) := by
  rw [step_of_inbox_cons hin, runAction]

/-- Settles O42: the run without a reset by induction on its length, and the step that takes the reset. -/
theorem fatalLastsUntilReset : Obligations.FatalLastsUntilReset := by
  refine ⟨fun n s => runSteps_of_fatal n, fun s rest _ hin => ⟨_, step_reset hin, ?_, fun c hc => ?_⟩⟩
  · simp
  · exact List.eq_of_mem_replicate hc

end Sys2Proof.Machine
end

section
/-! An allocation on a full block, and the commands that are rejected (60_exceptions R85, R86). -/

namespace Sys2Proof.Machine

variable {s t : State} {i : Instr} {h : Byte}

/-- Check 4: an allocation that passes the checks before it and finds every context live. -/
theorem exec_of_full (hf : s.fatal = false) (ha : Allocates i) (hlive : ∀ h, i.handle? = some h → liveAt s h = true)
    (hn : freeContext s = none) : exec i s = .next (exhaust s) := by
  obtain rfl | ⟨h, rfl⟩ := ha
  · simp only [exec, execNew, whenServing_serving hf, withFree_none hn]
  · obtain ⟨c, hc⟩ : ∃ c, liveContext s h = some c := by
      rw [← Option.isSome_iff_exists, ← liveAt_eq_isSome, hlive h rfl]
    simp only [exec, execCopy, whenServing_serving hf, withLive_some hc, withFree_none hn]

/-- On a full block every handle less than NUM_CTX is live. -/
theorem liveAt_of_all_live (hall : ∀ c ∈ s.ctx, c.live = true) (hlt : h.toNat < s.ctx.length) : liveAt s h = true := by
  rw [liveAt, List.getElem?_eq_getElem hlt]
  exact hall _ (List.getElem_mem hlt)

/-- Settles O28: NEW names no handle, and the handle of the COPY is live because every context is. -/
theorem exhaustionSetsFatal : Obligations.ExhaustionSetsFatal := by
  intro s i hf hall hi
  have hn : freeContext s = none := freeContext_eq_none.2 hall
  obtain rfl | ⟨h, rfl, hlt⟩ := hi
  · exact exec_of_full hf (.inl rfl) (by rintro h ⟨⟩) hn
  · exact exec_of_full hf (.inr ⟨h, rfl⟩) (by rintro _ ⟨⟩; exact liveAt_of_all_live hall hlt) hn

/-- Of the ends of a command, those with an error status other than EXHAUSTED write nothing (60_exceptions R85). -/
theorem CommandEnd.unchanged_of_rejected (hend : CommandEnd s i t) :
    ∃ r, t.responses = s.responses ++ [r] ∧
      ((r.status = .illegal ∨ r.status = .badHandle ∨ r.status = .halted) → t.ctx = s.ctx ∧ t.fatal = s.fatal) := by
  cases hend with
  | halted | badHandle => exact ⟨_, rfl, fun _ => ⟨rfl, rfl⟩⟩
  | exhausted | created | absorbed | digested | copied | dropped => exact ⟨_, rfl, by simp⟩

/-- Settles O31: a word that spells no command is only answered, and a command by its ends. -/
theorem rejectedCommandsChangeNothing : Obligations.RejectedCommandsChangeNothing := by
  intro s w rest hin
  rw [step_of_inbox_cons hin, runAction]
  cases hw : decode w with
  | error why =>
    obtain ⟨st, -, hraise⟩ := rejectIllegal_eq_raise why { s with inbox := rest }
    rw [runWord_of_decode_error hw, hraise]
    exact ⟨_, _, rfl, rfl, fun _ => ⟨rfl, rfl⟩⟩
  | ok i =>
    obtain ⟨t, ht, hend⟩ := exec_eq_next i { s with inbox := rest }
    obtain ⟨r, hr, hkeep⟩ := hend.unchanged_of_rejected
    exact ⟨t, r, (runWord_of_decode_ok hw).trans ht, hr, hkeep⟩

end Sys2Proof.Machine
end

section
/-! The status of the response to every command word, by the order of the checks (60_exceptions R84). -/

namespace Sys2Proof.Machine

variable {s t : State} {w : Word} {i : Instr} {h : Byte}

theorem checkWord_of_fatal (w : Word) (hf : s.fatal = true) : checkWord s w = .halted := by
  rw [checkWord, if_pos hf]

theorem any_rowMatches_iff : opcodeRows.any (rowMatches w) = true ↔ ∃ i, decode w = .ok i := by
  rw [List.any_eq_true, exists_decode_ok_iff_row]

theorem checkWord_eq_illegal {why : Illegal} (hw : decode w = .error why) (hf : s.fatal = false) :
    checkWord s w = .illegal := by
  have hrow : opcodeRows.any (rowMatches w) = false := by
    rw [Bool.eq_false_iff, Ne, any_rowMatches_iff, hw]
    simp
  simp [checkWord, hf, hrow]

theorem checkWord_eq_badHandle (hw : decode w = .ok i) (hf : s.fatal = false) (hi : i.handle? = some h)
    (hd : liveAt s h = false) : checkWord s w = .badHandle := by
  have hrow := any_rowMatches_iff.2 ⟨i, hw⟩
  simp only [checkWord, hf, hrow, fieldOp_of_decode hw, fieldH_of_decode hw]
  cases i with
  | new => cases hi
  | absorb | digest | copy | drop =>
    cases hi
    simp [Instr.fields, hd]

theorem checkWord_eq_exhausted (hw : decode w = .ok i) (hf : s.fatal = false) (ha : Allocates i)
    (hlive : ∀ h, i.handle? = some h → liveAt s h = true) (hn : freeContext s = none) :
    checkWord s w = .exhausted := by
  have hrow := any_rowMatches_iff.2 ⟨i, hw⟩
  have hall : s.ctx.all (·.live) = true := List.all_eq_true.2 (freeContext_eq_none.1 hn)
  simp only [checkWord, hf, hrow, fieldOp_of_decode hw, fieldH_of_decode hw]
  obtain rfl | ⟨h, rfl⟩ := ha
  · simp [Instr.fields, hall]
  · simp [Instr.fields, hall, hlive h rfl]

/-- A command that passes every check ends with OK. -/
theorem CommandEnd.status_ok (hend : CommandEnd s i t) (hf : s.fatal = false)
    (hlive : ∀ h, i.handle? = some h → liveAt s h = true) (hfree : Allocates i → freeContext s ≠ none) :
    ∃ r, t.responses = s.responses ++ [r] ∧ r.status = .ok := by
  cases hend with
  | halted _ hf' => simp [hf] at hf'
  | badHandle _ h _ hi hn => simpa [liveAt_eq_isSome, hn] using hlive h hi
  | exhausted _ _ ha hn => exact absurd hn (hfree ha)
  | created | absorbed | digested | copied | dropped => exact ⟨_, rfl, rfl⟩

/-- The meaning of a command answers the status its checks give. -/
theorem exec_status (hw : decode w = .ok i) (s : State) :
    ∃ t r, exec i s = .next t ∧ t.responses = s.responses ++ [r] ∧ r.status = checkWord s w := by
  cases hf : s.fatal with
  | true => exact ⟨_, _, exec_of_fatal i hf, rfl, (checkWord_of_fatal w hf).symm⟩
  | false =>
    by_cases hdead : ∃ h, i.handle? = some h ∧ liveAt s h = false
    · obtain ⟨h, hi, hd⟩ := hdead
      exact ⟨_, _, exec_of_dead hf hi (liveContext_of_liveAt hd), rfl, (checkWord_eq_badHandle hw hf hi hd).symm⟩
    have hlive : ∀ h, i.handle? = some h → liveAt s h = true := by simpa using hdead
    by_cases hfull : Allocates i ∧ freeContext s = none
    · obtain ⟨ha, hn⟩ := hfull
      exact ⟨_, _, exec_of_full hf ha hlive hn, rfl, (checkWord_eq_exhausted hw hf ha hlive hn).symm⟩
    have hfree : Allocates i → freeContext s ≠ none := not_and.1 hfull
    obtain ⟨t, ht, hend⟩ := exec_eq_next i s
    obtain ⟨r, hr, hok⟩ := hend.status_ok hf hlive hfree
    exact ⟨t, r, ht, hr, hok.trans (checkWord_eq_ok hw hf hlive hfree).symm⟩

/-- The answer to every command word: one response with the status its checks give, and with OK the command has run. -/
theorem runWord_status (w : Word) (s : State) :
    ∃ t r, runWord w s = .next t ∧ t.inbox = s.inbox ∧ t.responses = s.responses ++ [r] ∧ r.status = checkWord s w ∧
      (r.status = .ok → ∃ i, decode w = .ok i ∧ exec i s = .next t) := by
  cases hw : decode w with
  | ok i =>
    obtain ⟨t, r, ht, hr, hst⟩ := exec_status hw s
    exact ⟨t, r, (runWord_of_decode_ok hw).trans ht, (commandEnd_of_exec ht).inbox_eq, hr, hst, fun _ => ⟨i, rfl, ht⟩⟩
  | error why =>
    rw [runWord_of_decode_error hw]
    cases hf : s.fatal with
    | true =>
      rw [rejectIllegal_fatal why hf]
      exact ⟨_, _, rfl, rfl, rfl, (checkWord_of_fatal w hf).symm, by simp⟩
    | false =>
      rw [rejectIllegal_serving why hf]
      exact ⟨_, _, rfl, rfl, rfl, (checkWord_eq_illegal hw hf).symm, by simp⟩

/-- A handle names no live context when it is at or above NUM_CTX or its context is free (10_state R15). -/
theorem liveAt_eq_false_iff :
    liveAt s h = false ↔ s.ctx.length ≤ h.toNat ∨ (s.ctx[h.toNat]?).map (·.live) = some false := by
  rw [liveAt, ← List.getElem?_eq_none_iff]
  cases s.ctx[h.toNat]? <;> simp

/-- Among the opcodes of the map, those of the commands that take a handle (30_encoding R42). -/
theorem two_le_op_iff (i : Instr) :
    2 ≤ i.fields.op.toNat ↔ i.fields.op = 2 ∨ i.fields.op = 3 ∨ i.fields.op = 4 ∨ i.fields.op = 5 := by
  cases i <;> simp [Instr.fields]

/-- The order of the checks, written out over opcodes and contexts (60_exceptions R84). The opcodes of check 3 are those
from 2 on because check 2 has left none above 5. -/
theorem checkWord_eq (s : State) (w : Word) :
    checkWord s w =
      if s.fatal = true then .halted
      else if ∀ row ∈ opcodeRows, rowMatches w row = false then .illegal
      else if (fieldOp w = 2 ∨ fieldOp w = 3 ∨ fieldOp w = 4 ∨ fieldOp w = 5) ∧
          (s.ctx.length ≤ (fieldH w).toNat ∨ (s.ctx[(fieldH w).toNat]?).map (·.live) = some false) then .badHandle
      else if (fieldOp w = 1 ∨ fieldOp w = 4) ∧ ∀ c ∈ s.ctx, c.live = true then .exhausted
      else .ok := by
  refine if_congr Iff.rfl rfl (ite_congr (propext ?_) (fun _ => rfl) fun hrow => if_congr ?_ rfl (if_congr ?_ rfl rfl))
  · simp
  · obtain ⟨i, hw⟩ : ∃ i, decode w = .ok i := by
      rw [← exists_decode_error_iff_no_row, exists_decode_error_iff, not_not] at hrow
      exact hrow
    rw [← liveAt_eq_false_iff, fieldOp_of_decode hw, ← two_le_op_iff]
    simp
  · simp [← BitVec.toNat_inj]

/-- Settles O30: the status of the answer is that of the checks, and those are the chain. -/
theorem responseStatusFollowsCheckOrder : Obligations.ResponseStatusFollowsCheckOrder := by
  intro s w rest hin
  obtain ⟨t, r, hrun, hinbox, hr, hst, hok⟩ := runWord_status w { s with inbox := rest }
  rw [step_of_inbox_cons hin, runAction]
  exact ⟨t, r, hrun, hinbox, hr, hst.trans (checkWord_eq s w), hok⟩

end Sys2Proof.Machine
end

section
/-! The count of a command word, by the status of its response (70_reset_and_hazards R97). -/

namespace Sys2Proof.Machine

variable {s : State} {w : Word} {h : Byte} {c : Context}

/-- A word whose checks end with another status than OK runs no permutation. -/
theorem permutationsRun_of_checkWord_ne_ok (hw : checkWord s w ≠ .ok) : permutationsRun w s = 0 := by
  unfold permutationsRun
  split
  · exact if_neg hw
  · rfl

/-- The word of a command counts what the command's body runs, once the checks let it run. -/
theorem permutationsRun_encode (i : Instr) (s : State) :
    permutationsRun (encode i) s = if checkWord s (encode i) = .ok then permutationsOf i s else 0 := by
  simp only [permutationsRun, decode_encode]

theorem permutationsRun_copy (h : Byte) (s : State) : permutationsRun (encode (.copy h)) s = 0 := by
  rw [permutationsRun_encode, permutationsOf, ite_self]

theorem permutationsRun_drop (h : Byte) (s : State) : permutationsRun (encode (.drop h)) s = 0 := by
  rw [permutationsRun_encode, permutationsOf, ite_self]

theorem permutationsRun_digest (hok : checkWord s (encode (.digest h)) = .ok) :
    permutationsRun (encode (.digest h)) s = 1 := by
  rw [permutationsRun_encode, if_pos hok, permutationsOf]

theorem permutationsRun_absorb {b : Byte} (hok : checkWord s (encode (.absorb h b)) = .ok)
    (hc : s.ctx[h.toNat]? = some c) :
    permutationsRun (encode (.absorb h b)) s = if c.cur.val = 135 then 1 else 0 := by
  rw [permutationsRun_encode, if_pos hok, permutationsOf, cursorAt, hc]

/-- ABSORB on a serving block passes every check when its handle is live, since it allocates nothing. -/
theorem checkWord_absorb_live (b : Byte) (hf : s.fatal = false) (hc : liveContext s h = some c) :
    checkWord s (encode (.absorb h b)) = .ok := by
  refine checkWord_eq_ok (decode_encode _) hf ?_ (by simp [Allocates])
  rintro _ ⟨⟩
  rw [liveAt_eq_isSome, hc, Option.isSome_some]

/-- AbsorbByte permutes the lanes at cursor 135 and nowhere else (41_sponge R65). -/
theorem absorbByte_lanes (A : Lanes) (cur : Fin 136) (b : Byte) :
    (absorbByte A cur b).1 =
      if cur.val = 135 then keccakF (xorStateByte A (rateByte cur) b) else xorStateByte A (rateByte cur) b := by
  split
  next hcur => rw [absorbByte_of_eq A cur b hcur]
  next hcur => rw [absorbByte_of_lt A cur b (by omega)]

/-- A step on a command word gives one response, with the status of the word's checks. -/
theorem step_command_status {rest : List HostAction} (hin : s.inbox = .command w :: rest) :
    ∃ t r, step s = .next t ∧ t.responses = s.responses ++ [r] ∧ r.status = checkWord s w := by
  obtain ⟨t, r, hrun, -, hr, hst, -⟩ := runWord_status w { s with inbox := rest }
  rw [step_of_inbox_cons hin, runAction]
  exact ⟨t, r, hrun, hr, hst⟩

/-- Settles O47: the status decides whether the word counts at all, and then its command says how many. -/
theorem permutationCountMatchesTheCommand : Obligations.PermutationCountMatchesTheCommand := by
  refine ⟨fun s w rest hin => ?_, fun s h b c hf hc hl => ?_⟩
  · obtain ⟨t, r, hstep, hr, hst⟩ := step_command_status hin
    refine ⟨t, r, hstep, hr, hst, permutationsNext_command hin, ?rejected, ?new, ?copyDrop, ?digest, ?absorb⟩
    case rejected => exact fun hne => permutationsRun_of_checkWord_ne_ok (hst ▸ hne)
    case new =>
      rintro rfl
      exact permutationsRun_new s
    case copyDrop =>
      rintro h (rfl | rfl)
      · exact permutationsRun_copy h s
      · exact permutationsRun_drop h s
    case digest =>
      rintro h hok rfl
      exact permutationsRun_digest (hst ▸ hok)
    case absorb =>
      rintro h b c hok rfl hc
      exact permutationsRun_absorb (hst ▸ hok) hc
  · have hcount := permutationsRun_absorb (checkWord_absorb_live b hf (liveContext_eq_some.2 ⟨hc, hl⟩)) hc
    refine ⟨hcount, ?_⟩
    rw [absorbByte_lanes, hcount]
    by_cases hcur : c.cur.val = 135 <;> simp [hcur]

end Sys2Proof.Machine
end

section
/-! Reset as an action of the host (70_reset_and_hazards R94). -/

namespace Sys2Proof.Machine

/-- Settles O36: the contexts a reset leaves are those of a block just reset (10_state R22). -/
theorem resetActionClearsTheBlock : Obligations.ResetActionClearsTheBlock := by
  intro s rest hin
  obtain ⟨hlen, hzero, -⟩ := resetValuesAreZero.1 s.ctx.length
  exact ⟨_, step_reset hin, hlen, hzero, rfl, rfl, rfl⟩

end Sys2Proof.Machine
end
